-- ==== Sys2Proof/Word.lean ====
section
/-! DEFINITION. The bit-vector types of the machine: 00_scope.md R5, R10; 30_encoding.md R54. -/

namespace Sys2Proof

/-- An 8-bit value: a register, a memory byte, a timer, an immediate `kk` (R5 `REG_W`, `TIMER_W`). -/
abbrev Byte := BitVec 8

/-- A 16-bit value: `pc`, `I`, a stack slot, an opcode word (R5 `PC_W`, `I_W`, `STACK_W`, `OPCODE_W`). -/
abbrev Word := BitVec 16

/-- A 4-bit field of the opcode: `x`, `y`, `n` (R54). -/
abbrev Nibble := BitVec 4

/-- The 12-bit immediate address `nnn` (R54). -/
abbrev Addr12 := BitVec 12

end Sys2Proof
end

