-- ==== Sys2Proof/Syntax.lean ====
section
/-! DEFINITION. The instructions: one constructor per row of spec/opcode_table.json, in the table's order (30_encoding.md R59).
Fields the decoder does not examine (R61, `ignored_fields` of the table) are kept, so that no bit of a word is lost (log 15). -/

namespace Sys2Proof

inductive Instr where
  /-- `00E0` CLS (R103). -/
  | cls
  /-- `00EE` RET (R67). -/
  | ret
  /-- `1nnn` JP nnn (R68). -/
  | jp (nnn : Addr12)
  /-- `2nnn` CALL nnn (R69). -/
  | call (nnn : Addr12)
  /-- `3xkk` SE Vx, kk (R73). -/
  | seImm (x : Nibble) (kk : Byte)
  /-- `4xkk` SNE Vx, kk (R74). -/
  | sneImm (x : Nibble) (kk : Byte)
  /-- `5xyn` SE Vx, Vy; `n` is not examined (R75, R61). -/
  | seReg (x y n : Nibble)
  /-- `6xkk` LD Vx, kk (R79). -/
  | ldImm (x : Nibble) (kk : Byte)
  /-- `7xkk` ADD Vx, kk (R80). -/
  | addImm (x : Nibble) (kk : Byte)
  /-- `8xy0` LD Vx, Vy (R85). -/
  | ldReg (x y : Nibble)
  /-- `8xy1` OR Vx, Vy (R86). -/
  | orReg (x y : Nibble)
  /-- `8xy2` AND Vx, Vy (R87). -/
  | andReg (x y : Nibble)
  /-- `8xy3` XOR Vx, Vy (R88). -/
  | xorReg (x y : Nibble)
  /-- `8xy4` ADD Vx, Vy (R89). -/
  | addReg (x y : Nibble)
  /-- `8xy5` SUB Vx, Vy (R90). -/
  | sub (x y : Nibble)
  /-- `8xy6` SHR Vx; `y` is not used (R91, R61). -/
  | shr (x y : Nibble)
  /-- `8xy7` SUBN Vx, Vy (R92). -/
  | subn (x y : Nibble)
  /-- `8xyE` SHL Vx; `y` is not used (R93, R61). -/
  | shl (x y : Nibble)
  /-- `9xyn` SNE Vx, Vy; `n` is not examined (R76, R61). -/
  | sneReg (x y n : Nibble)
  /-- `Annn` LD I, nnn (R81). -/
  | ldI (nnn : Addr12)
  /-- `Bnnn` JP V0, nnn (R70). -/
  | jpV0 (nnn : Addr12)
  /-- `Cxkk` RND Vx, kk (R82). -/
  | rnd (x : Nibble) (kk : Byte)
  /-- `Dxyn` DRW Vx, Vy, n (R104). -/
  | drw (x y n : Nibble)
  /-- `Ex9E` SKP Vx (R77). -/
  | skp (x : Nibble)
  /-- `ExA1` SKNP Vx (R78). -/
  | sknp (x : Nibble)
  /-- `Fx07` LD Vx, DT (R109). -/
  | ldVxDT (x : Nibble)
  /-- `Fx0A` LD Vx, K (R110). -/
  | ldVxK (x : Nibble)
  /-- `Fx15` LD DT, Vx (R111). -/
  | ldDTVx (x : Nibble)
  /-- `Fx18` LD ST, Vx (R112). -/
  | ldSTVx (x : Nibble)
  /-- `Fx1E` ADD I, Vx (R96). -/
  | addI (x : Nibble)
  /-- `Fx29` LD F, Vx (R97). -/
  | ldF (x : Nibble)
  /-- `Fx33` LD B, Vx (R98). -/
  | ldB (x : Nibble)
  /-- `Fx55` LD [I], Vx (R99). -/
  | ldMemVx (x : Nibble)
  /-- `Fx65` LD Vx, [I] (R100). -/
  | ldVxMem (x : Nibble)
  /-- `UNDEF`: a word that matches no other row; it is kept whole for the diagnostic event (R114, R115). -/
  | undef (op : Word)
deriving DecidableEq, Repr

end Sys2Proof
end

