-- ==== Sys2Proof/WellFormed.lean ====
section
/-! DEFINITION. Which terms of `Instr` stand for a word: all whose fields fit (their types see to it), and `undef op` only for the
unrecognized words, listed as 30_encoding.md R60 lists them. -/

namespace Sys2Proof

/-- The unrecognized opcodes, family by family (R60). -/
def unrecognized (op : Word) : Bool :=
  let fam := op.extractLsb' 12 4
  let n := op.extractLsb' 0 4
  let kk := op.extractLsb' 0 8
  (fam == 0x0#4 && op != 0x00E0#16 && op != 0x00EE#16)
    || (fam == 0x8#4 && [0x8#4, 0x9#4, 0xA#4, 0xB#4, 0xC#4, 0xD#4, 0xF#4].contains n)
    || (fam == 0xE#4 && !([0x9E#8, 0xA1#8].contains kk))
    || (fam == 0xF#4 && !([0x07#8, 0x0A#8, 0x15#8, 0x18#8, 0x1E#8, 0x29#8, 0x33#8, 0x55#8, 0x65#8].contains kk))

/-- The one check that the types of the fields leave: `undef` carries an unrecognized word (R114). -/
def Instr.wf : Instr → Bool
  | .undef op => unrecognized op
  | .cls | .ret | .jp _ | .call _ | .seImm _ _ | .sneImm _ _ | .seReg _ _ _ | .ldImm _ _ | .addImm _ _
  | .ldReg _ _ | .orReg _ _ | .andReg _ _ | .xorReg _ _ | .addReg _ _ | .sub _ _ | .shr _ _ | .subn _ _
  | .shl _ _ | .sneReg _ _ _ | .ldI _ | .jpV0 _ | .rnd _ _ | .drw _ _ _ | .skp _ | .sknp _ | .ldVxDT _
  | .ldVxK _ | .ldDTVx _ | .ldSTVx _ | .addI _ | .ldF _ | .ldB _ | .ldMemVx _ | .ldVxMem _ => true

end Sys2Proof
end

