-- ==== Sys2Proof/Decode.lean ====
section
/-! DEFINITION. The decoder (30_encoding.md R53, R54, R57), the encoder written from the encodings of the instruction rules, and
the opcode table's masks and matches (R59). The decoder dispatches on two levels as R57 says; the table is a second, independent
description of the same map. -/

namespace Sys2Proof

/-! ## Fields (R54) -/

def famOf (op : Word) : Nibble := op.extractLsb' 12 4
def xOf (op : Word) : Nibble := op.extractLsb' 8 4
def yOf (op : Word) : Nibble := op.extractLsb' 4 4
def nOf (op : Word) : Nibble := op.extractLsb' 0 4
def kkOf (op : Word) : Byte := op.extractLsb' 0 8
def nnnOf (op : Word) : Addr12 := op.extractLsb' 0 12

/-! ## Decoding (R57) -/

/-- Family 0x0: the key is the full opcode. -/
def decodeFam0 (op : Word) : Instr :=
  if op = 0x00E0#16 then .cls
  else if op = 0x00EE#16 then .ret
  else .undef op

/-- Family 0x8: the key is the low nibble. -/
def decodeFam8 (op : Word) : Instr :=
  match nOf op with
  | 0x0#4 => .ldReg (xOf op) (yOf op)
  | 0x1#4 => .orReg (xOf op) (yOf op)
  | 0x2#4 => .andReg (xOf op) (yOf op)
  | 0x3#4 => .xorReg (xOf op) (yOf op)
  | 0x4#4 => .addReg (xOf op) (yOf op)
  | 0x5#4 => .sub (xOf op) (yOf op)
  | 0x6#4 => .shr (xOf op) (yOf op)
  | 0x7#4 => .subn (xOf op) (yOf op)
  | 0xE#4 => .shl (xOf op) (yOf op)
  | _ => .undef op

/-- Family 0xE: the key is the low byte (90_conflicts.md C8). -/
def decodeFamE (op : Word) : Instr :=
  match kkOf op with
  | 0x9E#8 => .skp (xOf op)
  | 0xA1#8 => .sknp (xOf op)
  | _ => .undef op

/-- Family 0xF: the key is the low byte. -/
def decodeFamF (op : Word) : Instr :=
  match kkOf op with
  | 0x07#8 => .ldVxDT (xOf op)
  | 0x0A#8 => .ldVxK (xOf op)
  | 0x15#8 => .ldDTVx (xOf op)
  | 0x18#8 => .ldSTVx (xOf op)
  | 0x1E#8 => .addI (xOf op)
  | 0x29#8 => .ldF (xOf op)
  | 0x33#8 => .ldB (xOf op)
  | 0x55#8 => .ldMemVx (xOf op)
  | 0x65#8 => .ldVxMem (xOf op)
  | _ => .undef op

/-- `Decode(op)` of R58: total, every word is one of the 34 instructions or `undef` (R57, R60). -/
def decodeWord (op : Word) : Instr :=
  match famOf op with
  | 0x0#4 => decodeFam0 op
  | 0x1#4 => .jp (nnnOf op)
  | 0x2#4 => .call (nnnOf op)
  | 0x3#4 => .seImm (xOf op) (kkOf op)
  | 0x4#4 => .sneImm (xOf op) (kkOf op)
  | 0x5#4 => .seReg (xOf op) (yOf op) (nOf op)
  | 0x6#4 => .ldImm (xOf op) (kkOf op)
  | 0x7#4 => .addImm (xOf op) (kkOf op)
  | 0x8#4 => decodeFam8 op
  | 0x9#4 => .sneReg (xOf op) (yOf op) (nOf op)
  | 0xA#4 => .ldI (nnnOf op)
  | 0xB#4 => .jpV0 (nnnOf op)
  | 0xC#4 => .rnd (xOf op) (kkOf op)
  | 0xD#4 => .drw (xOf op) (yOf op) (nOf op)
  | 0xE#4 => decodeFamE op
  | _ => decodeFamF op

/-- The opcode word of two bytes: the byte at the lower address is the high byte (20_memory.md R41). -/
def wordOfBytes (hi lo : Byte) : Word := hi.setWidth 16 <<< 8 ||| lo.setWidth 16

/-- Why a list of bytes holds no instruction: an instruction is two bytes (R53), and fewer are left. -/
inductive DecodeError where
  | truncated (left : Nat)
deriving DecidableEq, Repr

/-- The instruction at the head of a list of bytes, and the bytes after it (R53). -/
def decode : List Byte → Except DecodeError (Instr × List Byte)
  | hi :: lo :: rest => .ok (decodeWord (wordOfBytes hi lo), rest)
  | bytes => .error (.truncated bytes.length)

/-- The instruction read from `nbits` bits `w` of the opcode table, laid out in memory order (high byte first, R41). -/
def decodeTableWord (nbits w : Nat) : Option Instr :=
  let v := w % 2 ^ nbits
  match decode [BitVec.ofNat 8 (v / 256), BitVec.ofNat 8 v] with
  | .ok (i, _) => some i
  | .error _ => none

/-! ## Encoding, from the "Encoding" line of each instruction rule -/

/-- Format `A` of R55. -/
def formatA (fam : Nibble) (nnn : Addr12) : Word := fam.setWidth 16 <<< 12 ||| nnn.setWidth 16

/-- Format `K` of R55, and format `X` with its fixed low byte. -/
def formatK (fam x : Nibble) (kk : Byte) : Word := fam.setWidth 16 <<< 12 ||| x.setWidth 16 <<< 8 ||| kk.setWidth 16

/-- Formats `R` and `D` of R55. -/
def formatR (fam x y n : Nibble) : Word :=
  fam.setWidth 16 <<< 12 ||| x.setWidth 16 <<< 8 ||| y.setWidth 16 <<< 4 ||| n.setWidth 16

/-- The word of an instruction. -/
def encode : Instr → Word
  | .cls => 0x00E0#16
  | .ret => 0x00EE#16
  | .jp nnn => formatA 0x1#4 nnn
  | .call nnn => formatA 0x2#4 nnn
  | .seImm x kk => formatK 0x3#4 x kk
  | .sneImm x kk => formatK 0x4#4 x kk
  | .seReg x y n => formatR 0x5#4 x y n
  | .ldImm x kk => formatK 0x6#4 x kk
  | .addImm x kk => formatK 0x7#4 x kk
  | .ldReg x y => formatR 0x8#4 x y 0x0#4
  | .orReg x y => formatR 0x8#4 x y 0x1#4
  | .andReg x y => formatR 0x8#4 x y 0x2#4
  | .xorReg x y => formatR 0x8#4 x y 0x3#4
  | .addReg x y => formatR 0x8#4 x y 0x4#4
  | .sub x y => formatR 0x8#4 x y 0x5#4
  | .shr x y => formatR 0x8#4 x y 0x6#4
  | .subn x y => formatR 0x8#4 x y 0x7#4
  | .shl x y => formatR 0x8#4 x y 0xE#4
  | .sneReg x y n => formatR 0x9#4 x y n
  | .ldI nnn => formatA 0xA#4 nnn
  | .jpV0 nnn => formatA 0xB#4 nnn
  | .rnd x kk => formatK 0xC#4 x kk
  | .drw x y n => formatR 0xD#4 x y n
  | .skp x => formatK 0xE#4 x 0x9E#8
  | .sknp x => formatK 0xE#4 x 0xA1#8
  | .ldVxDT x => formatK 0xF#4 x 0x07#8
  | .ldVxK x => formatK 0xF#4 x 0x0A#8
  | .ldDTVx x => formatK 0xF#4 x 0x15#8
  | .ldSTVx x => formatK 0xF#4 x 0x18#8
  | .addI x => formatK 0xF#4 x 0x1E#8
  | .ldF x => formatK 0xF#4 x 0x29#8
  | .ldB x => formatK 0xF#4 x 0x33#8
  | .ldMemVx x => formatK 0xF#4 x 0x55#8
  | .ldVxMem x => formatK 0xF#4 x 0x65#8
  | .undef op => op

/-- The two bytes of an instruction in memory order (R41). -/
def encodeBytes (i : Instr) : List Byte := [(encode i).extractLsb' 8 8, (encode i).extractLsb' 0 8]

/-! ## The opcode table (R59) -/

/-- One row of R59: a word `op` is the instruction of the row when `op &&& mask = pattern`. -/
structure OpcodeRow where
  mask : Word
  pattern : Word
deriving DecidableEq, Repr

/-- The row of R59 an instruction belongs to; `undef` has none. -/
def rowOf : Instr → Option OpcodeRow
  | .cls => some ⟨0xFFFF#16, 0x00E0#16⟩
  | .ret => some ⟨0xFFFF#16, 0x00EE#16⟩
  | .jp _ => some ⟨0xF000#16, 0x1000#16⟩
  | .call _ => some ⟨0xF000#16, 0x2000#16⟩
  | .seImm _ _ => some ⟨0xF000#16, 0x3000#16⟩
  | .sneImm _ _ => some ⟨0xF000#16, 0x4000#16⟩
  | .seReg _ _ _ => some ⟨0xF000#16, 0x5000#16⟩
  | .ldImm _ _ => some ⟨0xF000#16, 0x6000#16⟩
  | .addImm _ _ => some ⟨0xF000#16, 0x7000#16⟩
  | .ldReg _ _ => some ⟨0xF00F#16, 0x8000#16⟩
  | .orReg _ _ => some ⟨0xF00F#16, 0x8001#16⟩
  | .andReg _ _ => some ⟨0xF00F#16, 0x8002#16⟩
  | .xorReg _ _ => some ⟨0xF00F#16, 0x8003#16⟩
  | .addReg _ _ => some ⟨0xF00F#16, 0x8004#16⟩
  | .sub _ _ => some ⟨0xF00F#16, 0x8005#16⟩
  | .shr _ _ => some ⟨0xF00F#16, 0x8006#16⟩
  | .subn _ _ => some ⟨0xF00F#16, 0x8007#16⟩
  | .shl _ _ => some ⟨0xF00F#16, 0x800E#16⟩
  | .sneReg _ _ _ => some ⟨0xF000#16, 0x9000#16⟩
  | .ldI _ => some ⟨0xF000#16, 0xA000#16⟩
  | .jpV0 _ => some ⟨0xF000#16, 0xB000#16⟩
  | .rnd _ _ => some ⟨0xF000#16, 0xC000#16⟩
  | .drw _ _ _ => some ⟨0xF000#16, 0xD000#16⟩
  | .skp _ => some ⟨0xF0FF#16, 0xE09E#16⟩
  | .sknp _ => some ⟨0xF0FF#16, 0xE0A1#16⟩
  | .ldVxDT _ => some ⟨0xF0FF#16, 0xF007#16⟩
  | .ldVxK _ => some ⟨0xF0FF#16, 0xF00A#16⟩
  | .ldDTVx _ => some ⟨0xF0FF#16, 0xF015#16⟩
  | .ldSTVx _ => some ⟨0xF0FF#16, 0xF018#16⟩
  | .addI _ => some ⟨0xF0FF#16, 0xF01E#16⟩
  | .ldF _ => some ⟨0xF0FF#16, 0xF029#16⟩
  | .ldB _ => some ⟨0xF0FF#16, 0xF033#16⟩
  | .ldMemVx _ => some ⟨0xF0FF#16, 0xF055#16⟩
  | .ldVxMem _ => some ⟨0xF0FF#16, 0xF065#16⟩
  | .undef _ => none

/-- The 34 rows of R59, in its order. -/
def opcodeRows : List OpcodeRow :=
  [⟨0xFFFF#16, 0x00E0#16⟩, ⟨0xFFFF#16, 0x00EE#16⟩, ⟨0xF000#16, 0x1000#16⟩, ⟨0xF000#16, 0x2000#16⟩,
   ⟨0xF000#16, 0x3000#16⟩, ⟨0xF000#16, 0x4000#16⟩, ⟨0xF000#16, 0x5000#16⟩, ⟨0xF000#16, 0x6000#16⟩,
   ⟨0xF000#16, 0x7000#16⟩, ⟨0xF00F#16, 0x8000#16⟩, ⟨0xF00F#16, 0x8001#16⟩, ⟨0xF00F#16, 0x8002#16⟩,
   ⟨0xF00F#16, 0x8003#16⟩, ⟨0xF00F#16, 0x8004#16⟩, ⟨0xF00F#16, 0x8005#16⟩, ⟨0xF00F#16, 0x8006#16⟩,
   ⟨0xF00F#16, 0x8007#16⟩]
  ++ [⟨0xF00F#16, 0x800E#16⟩, ⟨0xF000#16, 0x9000#16⟩, ⟨0xF000#16, 0xA000#16⟩, ⟨0xF000#16, 0xB000#16⟩,
   ⟨0xF000#16, 0xC000#16⟩, ⟨0xF000#16, 0xD000#16⟩, ⟨0xF0FF#16, 0xE09E#16⟩, ⟨0xF0FF#16, 0xE0A1#16⟩,
   ⟨0xF0FF#16, 0xF007#16⟩, ⟨0xF0FF#16, 0xF00A#16⟩, ⟨0xF0FF#16, 0xF015#16⟩, ⟨0xF0FF#16, 0xF018#16⟩,
   ⟨0xF0FF#16, 0xF01E#16⟩, ⟨0xF0FF#16, 0xF029#16⟩, ⟨0xF0FF#16, 0xF033#16⟩, ⟨0xF0FF#16, 0xF055#16⟩,
   ⟨0xF0FF#16, 0xF065#16⟩]

/-- Whether a word is an instruction of a row (R59). -/
def OpcodeRow.hits (r : OpcodeRow) (op : Word) : Bool := op &&& r.mask == r.pattern

end Sys2Proof
end

