-- ==== Sys2Proof/Machine/Flags.lean ====
section
/-! DEFINITION. The ALU's results and flags (43_alu.md R89 to R93, R95), and the decimal digits of `Fx33` (44_index_memory.md R98). -/

namespace Sys2Proof.Machine

/-- A flag as it is written to `VF`: 0 or 1 zero-extended to 8 bits (R84). -/
def flagByte (b : Bool) : Byte := (BitVec.ofBool b).setWidth 8

/-- The 9-bit sum `zext_9(a) + zext_9(b)` (R89). -/
def sum9 (a b : Byte) : BitVec 9 := a.setWidth 9 + b.setWidth 9

/-- `s[7:0]` (R89). -/
def addResult (a b : Byte) : Byte := (sum9 a b).extractLsb' 0 8

/-- `s[8]`: the carry (R89). -/
def addCarry (a b : Byte) : Bool := (sum9 a b).getLsbD 8

/-- `(a - b) mod 256` (R90, R92). -/
def subResult (a b : Byte) : Byte := a - b

/-- NOT borrow of `a - b` (R90, R92). -/
def notBorrow (a b : Byte) : Bool := b.toNat ≤ a.toNat

/-- `zext_8(a[7:1])` (R91). -/
def shrResult (a : Byte) : Byte := (a.extractLsb' 1 7).setWidth 8

/-- The bit shifted out to the right, `a[0]` (R91). -/
def shrLost (a : Byte) : Bool := a.getLsbD 0

/-- `a[6:0] ++ 0b0` (R93). -/
def shlResult (a : Byte) : Byte := a <<< 1

/-- The bit shifted out to the left, `a[7]` (R93). -/
def shlLost (a : Byte) : Bool := a.getLsbD 7

/-- Hundreds, tens and ones of a byte, each as a byte (R98). -/
def decimalDigits (b : Byte) : List Byte :=
  [BitVec.ofNat 8 (b.toNat / 100), BitVec.ofNat 8 (b.toNat / 10 % 10), BitVec.ofNat 8 (b.toNat % 10)]

end Sys2Proof.Machine
end

