-- ==== Sys2Proof/Config.lean ====
section
/-! DEFINITION. The parameters of the hardware (00_scope.md R5) and its one free value, the random byte (42_load_imm.md R83). -/

namespace Sys2Proof

/-- `MEM_SIZE`: bytes in the Address Space (R5, R34). -/
def Config.memSize : Nat := 4096

/-- `PROG_BASE`: the program-load offset and the reset value of `pc` (R5). -/
def Config.progBase : Nat := 0x200

/-- `MAX_IMAGE` = 4096 - 0x200: the largest program image in bytes (R5, R50). -/
def Config.maxImage : Nat := 3584

/-- `FONT_LEN`: bytes in the glyph table (R5). -/
abbrev Config.fontLen : Nat := 80

/-- The draws of the random byte (R83, decision D21): a free value, so no body is given.
`Config.rnd k` is the byte that the `k`-th executed `Cxkk` receives; log 4. -/
opaque Config.rnd : Nat → Byte

end Sys2Proof
end

