-- ==== Sys2Proof/Machine/Font.lean ====
section
/-! DEFINITION. The glyph table, the parameter `FONT` of 00_scope.md R5, and its default (20_memory.md R48; log 2). -/

namespace Sys2Proof.Machine

/-- What the parameter `FONT[0..79]` ranges over: glyph `d` is the five bytes from `5 * d` (R48). -/
abbrev Font := Vector Byte Config.fontLen

/-- The customary bytes, sixteen glyphs of five rows (R48; 90_conflicts.md C11); PRESUMED, log 2. -/
def fontBytes : List Byte :=
  [0xF0, 0x90, 0x90, 0x90, 0xF0] ++ [0x20, 0x60, 0x20, 0x20, 0x70]
    ++ [0xF0, 0x10, 0xF0, 0x80, 0xF0] ++ [0xF0, 0x10, 0xF0, 0x10, 0xF0]
    ++ [0x90, 0x90, 0xF0, 0x10, 0x10] ++ [0xF0, 0x80, 0xF0, 0x10, 0xF0]
    ++ [0xF0, 0x80, 0xF0, 0x90, 0xF0] ++ [0xF0, 0x10, 0x20, 0x40, 0x40]
    ++ [0xF0, 0x90, 0xF0, 0x90, 0xF0] ++ [0xF0, 0x90, 0xF0, 0x10, 0xF0]
    ++ [0xF0, 0x90, 0xF0, 0x90, 0x90] ++ [0xE0, 0x90, 0xE0, 0x90, 0xE0]
    ++ [0xF0, 0x80, 0x80, 0x80, 0xF0] ++ [0xE0, 0x90, 0x90, 0x90, 0xE0]
    ++ [0xF0, 0x80, 0xF0, 0x80, 0xF0] ++ [0xF0, 0x80, 0xF0, 0x80, 0x80]

/-- The default of the parameter `FONT` (R48). -/
def defaultFont : Font := ⟨fontBytes.toArray, rfl⟩

end Sys2Proof.Machine
end

