-- ==== Sys2Proof/Machine/State.lean ====
section
/-! DEFINITION. The state of the core: every piece of state of 10_state.md R13 to R25, the parameter `FONT`, and the model's
counter of random draws. -/

namespace Sys2Proof.Machine

/-- The three fatal conditions the core detects (60_exceptions.md R116). -/
inductive Fatal where
  /-- `2nnn` with `sp = 15` (R117). -/
  | stackOverflow
  /-- `00EE` with `sp = 0` (R118). -/
  | stackUnderflow
  /-- An address above 4095 would be accessed (R119). -/
  | memoryBounds
deriving DecidableEq, Repr

/-- The Address Space, as the list of the bytes that differ from what reset leaves (R24, R34, R49); log 3. -/
abbrev Memory := List Host.Cell

/-- The framebuffer `fb[y][x]`: 32 rows of 64 pixels, `true` is lit (R23). -/
abbrev Framebuffer := Vector (Vector Bool 64) 32

/-- The state of the core. -/
structure State where
  /-- `V[0]` to `V[15]`; `V[15]` is the flag register `VF` (R13, R14). -/
  v : Vector Byte 16
  /-- The program counter (R16). -/
  pc : Word
  /-- The index register `I` (R18). -/
  i : Word
  /-- The sixteen return-address slots; slot 0 is never used (R19, R20). -/
  stack : Vector Word 16
  /-- The 4-bit stack pointer; 0 is the empty stack (R20). -/
  sp : Fin 16
  /-- The delay timer `DT` (R21). -/
  dt : Byte
  /-- The sound timer `ST` (R21). -/
  st : Byte
  /-- The sixteen key bits, `true` is held (R22). -/
  keys : Vector Bool 16
  /-- The framebuffer (R23). -/
  fb : Framebuffer
  /-- The Address Space (R24). -/
  mem : Memory
  /-- The fault latch; the spec's value `None` is `none` (R25). -/
  fault : Option Fatal
  /-- The parameter `FONT` (00_scope.md R5; 20_memory.md R48): the bytes that `Reset` installs at 0 to 79. It is no register: no
  instruction and no host action changes it, and it differs only from one machine to another; log 2. -/
  font : Font
  /-- The model's own field: how many random bytes have been drawn so far (R83; log 4). -/
  draws : Nat
deriving DecidableEq, Repr

/-- The machine with the parameter `FONT = f` right after `Reset` (R30, R135). Memory lists nothing: an unlisted byte reads as
reset leaves it (log 3). -/
def State.resetWith (f : Font) : State where
  v := Vector.replicate 16 0#8
  pc := BitVec.ofNat 16 Config.progBase
  i := 0#16
  stack := Vector.replicate 16 0#16
  sp := 0
  dt := 0#8
  st := 0#8
  keys := Vector.replicate 16 false
  fb := Vector.replicate 32 (Vector.replicate 64 false)
  mem := []
  fault := none
  font := f
  draws := 0

/-- The machine right after `Reset`, with the default of `FONT` (R48). -/
def State.reset : State := State.resetWith defaultFont

/-- Stops of the model. No meaning raises one: every fatal condition of the spec is a next state with the latch set (R120; log 1). -/
inductive Fault where
  /-- An access to an address that does not exist. Raised by nobody, since R39 makes each such access the fatal condition
  `MemoryBounds`; it is declared so that a stop has a name. Safe. -/
  | addressOutsideMemory (addr : Nat)
deriving DecidableEq, Repr

/-- Refusals of the model. -/
inductive Refusal where
  /-- The instruction has no meaning yet. Raised by a refused arm of `exec` alone; no arm is refused now. Safe. -/
  | notModelled (mnemonic : String)
deriving DecidableEq, Repr

end Sys2Proof.Machine
end

