-- ==== Sys2Proof/Machine/Operands.lean ====
section
/-! DEFINITION. The operand forms: registers, immediates, the key a register selects, the effective addresses
(10_state.md R13; 30_encoding.md R56; 41_skip.md R77; 44_index_memory.md R101). -/

namespace Sys2Proof.Machine

/-- The index of the flag register `VF` (R5 `FLAG_REG`). -/
def flagReg : Nibble := 0xF#4

/-- The read of `V[x]` (R10, R13). -/
def State.getV (s : State) (x : Nibble) : Byte := s.v[x.toNat]

/-- `V[x] <- b` (R10, R13). No register is hardwired. -/
def State.setV (s : State) (x : Nibble) (b : Byte) : State := { s with v := s.v.set x.toNat b }

/-- `V[0]` to `V[x]`, ascending: what `Fx55` stores (R99). -/
def State.regsUpTo (s : State) (x : Nibble) : List Byte := s.v.toList.take (x.toNat + 1)

/-- `V[k], V[k+1], ...` <- the bytes, ascending: what `Fx65` loads (R100). -/
def loadRegs : List Byte → Nat → Vector Byte 16 → Vector Byte 16
  | [], _, v => v
  | b :: bs, k, v => loadRegs bs (k + 1) (v.setIfInBounds k b)

/-- `zext_16(nnn)` (R56). -/
def zextAddr (nnn : Addr12) : Word := nnn.setWidth 16

/-- `zext_16(b)` (R10). -/
def zextByte (b : Byte) : Word := b.setWidth 16

/-- Bit `keys[k]` (R22). -/
def State.keyHeld (s : State) (k : Nibble) : Bool := s.keys[k.toNat]

/-- The key `V[x]` selects: its low four bits (R77; log 11). -/
def State.keyOf (s : State) (x : Nibble) : Nibble := (s.getV x).extractLsb' 0 4

/-- `FirstKey(keys)`: the least index of a held key, if any is held (R113; log 12). -/
def State.firstKey (s : State) : Option Nat := s.keys.toList.findIdx? id

/-- The base address of the memory instructions and the sprite: `I` as an integer (R101). -/
def State.base (s : State) : Nat := s.i.toNat

end Sys2Proof.Machine
end

