-- ==== Sys2Proof/Machine/Ops.lean ====
section
/-! DEFINITION. The named operations over memory, the stack, the program counter and the fault latch: 20_memory.md R39 to R41,
40_flow.md R65 and R66, 60_exceptions.md R120, 10_state.md R17, 30_encoding.md R58. -/

namespace Sys2Proof.Machine

/-! ## Memory -/

/-- What a byte that nothing has written reads as: the reset contents, `FONT` and then zeros (R49; log 3). -/
def Memory.unlisted (f : Font) (a : Nat) : Byte := if h : a < Config.fontLen then f[a] else 0#8

/-- The raw read of a byte (R39, after the check). -/
def Memory.read (f : Font) : Memory → Nat → Byte
  | [], a => Memory.unlisted f a
  | c :: m, a => if c.1 = a then c.2 else Memory.read f m a

/-- A cell in front of a memory, dropped where it says no more than the reset contents do (log 3). -/
def Memory.place (f : Font) (a : Nat) (b : Byte) (m : Memory) : Memory :=
  if b = Memory.unlisted f a then m else (a, b) :: m

/-- The raw write of a byte (R39, after the check); it keeps the canonical form. -/
def Memory.write (f : Font) : Memory → Nat → Byte → Memory
  | [], a, b => Memory.place f a b []
  | c :: m, a, b =>
    if a < c.1 then Memory.place f a b (c :: m)
    else if a = c.1 then Memory.place f a b m
    else c :: Memory.write f m a b

/-- `n` bytes from `a` up, lowest address first (R42). -/
def Memory.readList (f : Font) (m : Memory) : Nat → Nat → List Byte
  | _, 0 => []
  | a, n + 1 => m.read f a :: Memory.readList f m (a + 1) n

/-- Bytes stored from `a` up, lowest address first (R42). -/
def Memory.writeList (f : Font) : Memory → Nat → List Byte → Memory
  | m, _, [] => m
  | m, a, b :: bs => Memory.writeList f (m.write f a b) (a + 1) bs

/-- The canonical form: addresses strictly rising and inside the Address Space, no cell equal to what is unlisted (log 3). -/
abbrev Memory.wf (f : Font) (m : Memory) : Prop :=
  m.Pairwise (fun c d => c.1 < d.1) ∧ ∀ c ∈ m, c.1 < Config.memSize ∧ c.2 ≠ Memory.unlisted f c.1

/-- `mem[a]`: the byte of the Address Space that a read of `a` gives (R10, R39). -/
def State.byteAt (s : State) (a : Nat) : Byte := s.mem.read s.font a

/-- `n` bytes of the Address Space from `a` up. -/
def State.bytesAt (s : State) (a n : Nat) : List Byte := s.mem.readList s.font a n

/-- The memory with bytes stored from `a` up. -/
def State.memWith (s : State) (a : Nat) (bs : List Byte) : Memory := s.mem.writeList s.font a bs

/-- Memory is in its canonical form (log 3). -/
abbrev State.memWf (s : State) : Prop := s.mem.wf s.font

/-- Whether `n` bytes from `a` up touch an address above 4095; an empty range touches none (R39, R101, R104 corner case a). -/
def outOfBounds (a n : Nat) : Bool := n ≠ 0 ∧ 4095 < a + n - 1

/-! ## Field updates -/

/-- `pc <- a`. -/
def State.setPc (s : State) (a : Word) : State := { s with pc := a }

/-- `I <- a`. -/
def State.setI (s : State) (a : Word) : State := { s with i := a }

/-- `DT <- b`. -/
def State.setDT (s : State) (b : Byte) : State := { s with dt := b }

/-- `ST <- b`. -/
def State.setST (s : State) (b : Byte) : State := { s with st := b }

/-- The framebuffer replaced. -/
def State.setFb (s : State) (f : Framebuffer) : State := { s with fb := f }

/-- The memory replaced. -/
def State.setMem (s : State) (m : Memory) : State := { s with mem := m }

/-- The register file replaced. -/
def State.setRegs (s : State) (v : Vector Byte 16) : State := { s with v := v }

/-- The stack and its pointer replaced. -/
def State.setStack (s : State) (sp : Fin 16) (stack : Vector Word 16) : State := { s with sp := sp, stack := stack }

/-- The count of draws replaced: nothing fixes which byte is drawn next (R83; log 4). -/
def State.withDraws (s : State) (d : Nat) : State := { s with draws := d }

/-- One random byte is consumed (R83; log 4). -/
def State.bumpDraws (s : State) : State := { s with draws := s.draws + 1 }

/-! ## The program counter (R17) -/

/-- `pc <- pc + 2`. -/
def State.advance (s : State) : State := s.setPc (s.pc + 2#16)

/-- The common skip rule (R72). -/
def State.skipIf (s : State) (cond : Bool) : State := s.setPc (s.pc + if cond then 4#16 else 2#16)

/-! ## Fatal conditions (R120) -/

/-- `raise c`: the latch is set and every other piece of state keeps its value (R10, R120). -/
def State.raise (s : State) (c : Fatal) : State := { s with fault := some c }

/-- How a step of `s` ends: in the state `r` computed, or by raising the condition `r` met. Both are next states (R8, R120; log 1). -/
def State.finish (s : State) (r : Except Fatal State) : Host.Outcome State Fault Refusal :=
  match r with
  | .ok t => .next t
  | .error c => .next (s.raise c)

/-! ## Checked accesses (R39, R101) -/

/-- `n` bytes read from `a` up, the whole range checked first. -/
def State.loadBytes (s : State) (a n : Nat) : Except Fatal (List Byte) :=
  if outOfBounds a n then .error .memoryBounds else .ok (s.bytesAt a n)

/-- Bytes stored from `a` up, the whole range checked before the first write. -/
def State.storeBytes (s : State) (a : Nat) (bs : List Byte) : Except Fatal State :=
  if outOfBounds a bs.length then .error .memoryBounds else .ok (s.setMem (s.memWith a bs))

/-! ## The stack controller -/

/-- `PushReturn(addr)` (R65). -/
def State.pushReturn (s : State) (addr : Word) : Except Fatal State :=
  if h : s.sp.val = 15 then .error .stackOverflow
  else .ok (s.setStack ⟨s.sp.val + 1, by omega⟩ (s.stack.set (s.sp.val + 1) addr (by omega)))

/-- `PopReturn()`: the popped address and the state after (R66). -/
def State.popReturn (s : State) : Except Fatal (Word × State) :=
  if s.sp.val = 0 then .error .stackUnderflow
  else .ok (s.stack[s.sp.val], s.setStack ⟨s.sp.val - 1, by omega⟩ s.stack)

/-! ## Fetch (R41, R58) -/

/-- The opcode word at `pc`; one check covers both bytes (R58). -/
def State.fetch (s : State) : Except Fatal Word :=
  if 4094 < s.pc.toNat then .error .memoryBounds
  else .ok (wordOfBytes (s.byteAt s.pc.toNat) (s.byteAt (s.pc.toNat + 1)))

/-- A state about to fetch the word `op`: the latch is clear, `pc` can be fetched from (it is moved to 0x200 only where it could not
be), and the two bytes of `op` stand there, high byte first; log 10. -/
def State.placeWord (s : State) (op : Word) : State :=
  let a := if 4094 < s.pc.toNat then Config.progBase else s.pc.toNat
  { s with fault := none, pc := BitVec.ofNat 16 a, mem := s.memWith a [op.extractLsb' 8 8, op.extractLsb' 0 8] }

end Sys2Proof.Machine
end

