-- ==== Sys2Proof/Machine/Alu.lean ====
section
/-! DEFINITION. The register-register ALU family (43_alu.md R84 to R93). -/

namespace Sys2Proof.Machine

/-- `V[x] <- r; pc <- pc + 2` (R85 to R88): no flag is written (R84; log 22). -/
def State.aluPlain (s : State) (x : Nibble) (r : Byte) : Host.Outcome State Fault Refusal :=
  .next (s.setV x r).advance

/-- `V[x] <- r; V[15] <- flag; pc <- pc + 2`, the flag last (R84; log 22). The operands were read before. -/
def State.aluFlagged (s : State) (x : Nibble) (r : Byte) (flag : Bool) : Host.Outcome State Fault Refusal :=
  .next ((s.setV x r).setV flagReg (flagByte flag)).advance

/-- `8xy0` LD Vx, Vy (R85). -/
def execLdReg (x y : Nibble) (s : State) : Host.Outcome State Fault Refusal :=
  s.aluPlain x (s.getV y)

/-- `8xy1` OR Vx, Vy (R86). -/
def execOrReg (x y : Nibble) (s : State) : Host.Outcome State Fault Refusal :=
  s.aluPlain x (s.getV x ||| s.getV y)

/-- `8xy2` AND Vx, Vy (R87). -/
def execAndReg (x y : Nibble) (s : State) : Host.Outcome State Fault Refusal :=
  s.aluPlain x (s.getV x &&& s.getV y)

/-- `8xy3` XOR Vx, Vy (R88). -/
def execXorReg (x y : Nibble) (s : State) : Host.Outcome State Fault Refusal :=
  s.aluPlain x (s.getV x ^^^ s.getV y)

/-- `8xy4` ADD Vx, Vy (R89). -/
def execAddReg (x y : Nibble) (s : State) : Host.Outcome State Fault Refusal :=
  s.aluFlagged x (addResult (s.getV x) (s.getV y)) (addCarry (s.getV x) (s.getV y))

/-- `8xy5` SUB Vx, Vy (R90). -/
def execSub (x y : Nibble) (s : State) : Host.Outcome State Fault Refusal :=
  s.aluFlagged x (subResult (s.getV x) (s.getV y)) (notBorrow (s.getV x) (s.getV y))

/-- `8xy6` SHR Vx: `V[x]` in place, `y` not used (R91; log 13). -/
def execShr (x _y : Nibble) (s : State) : Host.Outcome State Fault Refusal :=
  s.aluFlagged x (shrResult (s.getV x)) (shrLost (s.getV x))

/-- `8xy7` SUBN Vx, Vy (R92). -/
def execSubn (x y : Nibble) (s : State) : Host.Outcome State Fault Refusal :=
  s.aluFlagged x (subResult (s.getV y) (s.getV x)) (notBorrow (s.getV y) (s.getV x))

/-- `8xyE` SHL Vx: `V[x]` in place, `y` not used (R93; log 13). -/
def execShl (x _y : Nibble) (s : State) : Host.Outcome State Fault Refusal :=
  s.aluFlagged x (shlResult (s.getV x)) (shlLost (s.getV x))

end Sys2Proof.Machine
end

