-- ==== Sys2Proof/Machine/Draw.lean ====
section
/-! DEFINITION. The framebuffer: the pixel-XOR engine, `00E0` and `Dxyn` (45_draw.md R102 to R107). -/

namespace Sys2Proof.Machine

/-- The framebuffer with every pixel unlit (R103). -/
def blankFb : Framebuffer := Vector.replicate 32 (Vector.replicate 64 false)

/-- Pixel `fb[py][px]`; a coordinate outside the framebuffer is not lit (R102, R105). -/
def Framebuffer.lit (f : Framebuffer) (px py : Nat) : Bool :=
  if h : px < 64 ∧ py < 32 then (f[py]'h.2)[px]'h.1 else false

/-- What one toggle answers: the framebuffer after it, and the pair of R102. -/
structure Toggled where
  fb : Framebuffer
  collided : Bool
  lit : Bool

/-- `TogglePixel(px, py)`: coordinates are integers, and out of bounds is a no-op (R102; log 18). -/
def Framebuffer.toggle (f : Framebuffer) (px py : Nat) : Toggled :=
  if h : px < 64 ∧ py < 32 then
    let old := (f[py]'h.2)[px]'h.1
    ⟨f.set py ((f[py]'h.2).set px (!old) h.1) h.2, old, !old⟩
  else ⟨f, false, false⟩

/-- The columns of a sprite row whose bit is 1, left to right; bit 7 is column 0 (R104, R106; log 17). -/
def spriteColumns (b : Byte) : List Nat := (List.range 8).filter fun col => b.getLsbD (7 - col)

/-- The coordinates a sprite toggles, top row first: `(X + col, Y + row)` as integers (R104; log 18). -/
def spritePixels : List Byte → Nat → Nat → List (Nat × Nat)
  | [], _, _ => []
  | b :: bs, X, Y => ((spriteColumns b).map fun col => (X + col, Y)) ++ spritePixels bs X (Y + 1)

/-- Toggles a list of pixels in turn, collecting whether one collided (R104). -/
def togglePixels : List (Nat × Nat) → Framebuffer → Bool → Framebuffer × Bool
  | [], f, c => (f, c)
  | p :: ps, f, c => togglePixels ps (f.toggle p.1 p.2).fb (c || (f.toggle p.1 p.2).collided)

/-- `00E0` CLS (R103). -/
def execCls (s : State) : Host.Outcome State Fault Refusal :=
  .next (s.setFb blankFb).advance

/-- The framebuffer and the collision flag after drawing the rows at `(V[x], V[y])` (R104). -/
def State.drawn (s : State) (x y : Nibble) (rows : List Byte) : Framebuffer × Bool :=
  togglePixels (spritePixels rows (s.getV x).toNat (s.getV y).toNat) s.fb false

/-- `Dxyn` DRW Vx, Vy, n (R104). -/
def execDrw (x y n : Nibble) (s : State) : Host.Outcome State Fault Refusal :=
  s.finish ((s.loadBytes s.base n.toNat).map fun rows =>
    ((s.setFb (s.drawn x y rows).1).setV flagReg (flagByte (s.drawn x y rows).2)).advance)

end Sys2Proof.Machine
end

