-- ==== Sys2Proof/Machine/Flow.lean ====
section
/-! DEFINITION. Control transfer: `00EE`, `1nnn`, `2nnn`, `Bnnn` (40_flow.md R67 to R70). -/

namespace Sys2Proof.Machine

/-- `00EE` RET (R67). -/
def execRet (s : State) : Host.Outcome State Fault Refusal :=
  s.finish (s.popReturn.map fun r => r.2.setPc (r.1 + 2#16))

/-- `1nnn` JP (R68). -/
def execJp (nnn : Addr12) (s : State) : Host.Outcome State Fault Refusal :=
  .next (s.setPc (zextAddr nnn))

/-- `2nnn` CALL: the address pushed is that of the call itself (R69). -/
def execCall (nnn : Addr12) (s : State) : Host.Outcome State Fault Refusal :=
  s.finish ((s.pushReturn s.pc).map fun t => t.setPc (zextAddr nnn))

/-- `Bnnn` JP V0; the sum is not reduced modulo 4096 (R70). -/
def execJpV0 (nnn : Addr12) (s : State) : Host.Outcome State Fault Refusal :=
  .next (s.setPc (zextAddr nnn + zextByte (s.getV 0#4)))

end Sys2Proof.Machine
end

