-- ==== Sys2Proof/Machine/IndexMemory.lean ====
section
/-! DEFINITION. The index register and the memory instructions (44_index_memory.md R96 to R101). None of the memory instructions
changes `I` (R101; log 21). -/

namespace Sys2Proof.Machine

/-- `Fx1E` ADD I, Vx: modulo 65536, no flag (R96; log 21). -/
def execAddI (x : Nibble) (s : State) : Host.Outcome State Fault Refusal :=
  .next (s.setI (s.i + zextByte (s.getV x))).advance

/-- `Fx29` LD F, Vx: the whole register times 5 (R97; log 14). -/
def execLdF (x : Nibble) (s : State) : Host.Outcome State Fault Refusal :=
  .next (s.setI (zextByte (s.getV x) * 5#16)).advance

/-- `Fx33` LD B, Vx: the three decimal digits at `I`, `I + 1`, `I + 2` (R98). -/
def execLdB (x : Nibble) (s : State) : Host.Outcome State Fault Refusal :=
  s.finish ((s.storeBytes s.base (decimalDigits (s.getV x))).map State.advance)

/-- `Fx55` LD [I], Vx: `V[0]` to `V[x]` from `I` up (R99). -/
def execLdMemVx (x : Nibble) (s : State) : Host.Outcome State Fault Refusal :=
  s.finish ((s.storeBytes s.base (s.regsUpTo x)).map State.advance)

/-- `Fx65` LD Vx, [I]: `V[0]` to `V[x]` from `I` up (R100). -/
def execLdVxMem (x : Nibble) (s : State) : Host.Outcome State Fault Refusal :=
  s.finish ((s.loadBytes s.base (x.toNat + 1)).map fun bs => (s.setRegs (loadRegs bs 0 s.v)).advance)

end Sys2Proof.Machine
end

