-- ==== Sys2Proof/Machine/LoadImm.lean ====
section
/-! DEFINITION. Immediate loads, add immediate and random (42_load_imm.md R79 to R83). -/

namespace Sys2Proof.Machine

/-- `6xkk` LD Vx, kk (R79). -/
def execLdImm (x : Nibble) (kk : Byte) (s : State) : Host.Outcome State Fault Refusal :=
  .next (s.setV x kk).advance

/-- `7xkk` ADD Vx, kk: modulo 256, no flag (R80). -/
def execAddImm (x : Nibble) (kk : Byte) (s : State) : Host.Outcome State Fault Refusal :=
  .next (s.setV x (s.getV x + kk)).advance

/-- `Annn` LD I, nnn (R81). -/
def execLdI (nnn : Addr12) (s : State) : Host.Outcome State Fault Refusal :=
  .next (s.setI (zextAddr nnn)).advance

/-- `Cxkk` RND Vx, kk: the next free draw AND `kk` (R82, R83; log 4). -/
def execRnd (x : Nibble) (kk : Byte) (s : State) : Host.Outcome State Fault Refusal :=
  .next (s.bumpDraws.setV x (Config.rnd s.draws &&& kk)).advance

end Sys2Proof.Machine
end

