-- ==== Sys2Proof/Machine/Skip.lean ====
section
/-! DEFINITION. The conditional skips (41_skip.md R72 to R78). -/

namespace Sys2Proof.Machine

/-- `3xkk` SE Vx, kk (R73). -/
def execSeImm (x : Nibble) (kk : Byte) (s : State) : Host.Outcome State Fault Refusal :=
  .next (s.skipIf (s.getV x == kk))

/-- `4xkk` SNE Vx, kk (R74). -/
def execSneImm (x : Nibble) (kk : Byte) (s : State) : Host.Outcome State Fault Refusal :=
  .next (s.skipIf (s.getV x != kk))

/-- `5xyn` SE Vx, Vy (R75); the low nibble of the word has no effect (R61; log 15). -/
def execSeReg (x y _n : Nibble) (s : State) : Host.Outcome State Fault Refusal :=
  .next (s.skipIf (s.getV x == s.getV y))

/-- `9xyn` SNE Vx, Vy (R76); the low nibble of the word has no effect (R61; log 15). -/
def execSneReg (x y _n : Nibble) (s : State) : Host.Outcome State Fault Refusal :=
  .next (s.skipIf (s.getV x != s.getV y))

/-- `Ex9E` SKP Vx (R77; log 11). -/
def execSkp (x : Nibble) (s : State) : Host.Outcome State Fault Refusal :=
  .next (s.skipIf (s.keyHeld (s.keyOf x)))

/-- `ExA1` SKNP Vx (R78; log 11). -/
def execSknp (x : Nibble) (s : State) : Host.Outcome State Fault Refusal :=
  .next (s.skipIf (!s.keyHeld (s.keyOf x)))

end Sys2Proof.Machine
end

