-- ==== Sys2Proof/Machine/TimerKey.lean ====
section
/-! DEFINITION. Timers and the key wait (46_timer_key.md R109 to R113). -/

namespace Sys2Proof.Machine

/-- `Fx07` LD Vx, DT (R109). -/
def execLdVxDT (x : Nibble) (s : State) : Host.Outcome State Fault Refusal :=
  .next (s.setV x s.dt).advance

/-- `Fx0A` LD Vx, K: held while no key is set, else the lowest set index (R110, R113; log 12). -/
def execLdVxK (x : Nibble) (s : State) : Host.Outcome State Fault Refusal :=
  match s.firstKey with
  | none => .next s
  | some k => .next (s.setV x (BitVec.ofNat 8 k)).advance

/-- `Fx15` LD DT, Vx (R111). -/
def execLdDTVx (x : Nibble) (s : State) : Host.Outcome State Fault Refusal :=
  .next (s.setDT (s.getV x)).advance

/-- `Fx18` LD ST, Vx (R112). -/
def execLdSTVx (x : Nibble) (s : State) : Host.Outcome State Fault Refusal :=
  .next (s.setST (s.getV x)).advance

end Sys2Proof.Machine
end

