-- ==== Sys2Proof/Machine/Unrecognized.lean ====
section
/-! DEFINITION. Unrecognized opcodes and the diagnostic event (47_unrecognized.md R114, R115; 10_state.md R28). -/

namespace Sys2Proof.Machine

/-- `UNDEF`: a no-op that advances `pc` (R114). -/
def execUndef (_op : Word) (s : State) : Host.Outcome State Fault Refusal :=
  .next s.advance

/-- The event `Unrecognized(pc, op)` (R115). -/
structure DiagEvent where
  pc : Word
  op : Word
deriving DecidableEq, Repr

/-- The event that executing an instruction emits: only an unrecognized opcode emits one (R28, R115). -/
def diagOf (i : Instr) (s : State) : Option DiagEvent :=
  match i with
  | .undef op => some ⟨s.pc, op⟩
  | _ => none

/-- The event the step from `s` emits: the output `diag` of R29. It is no state and nothing reads it (R28, R115; log 7). A halted
core and a fetch that fails emit none (R58, R121). -/
def stepEvent (s : State) : Option DiagEvent :=
  match s.fault, s.fetch with
  | none, .ok op => diagOf (decodeWord op) s
  | _, _ => none

end Sys2Proof.Machine
end

