-- ==== Sys2Proof/Machine/Step.lean ====
section
/-! DEFINITION. `Step` (30_encoding.md R58), and how a word comes to stand where it fetches. -/

namespace Sys2Proof.Machine

/-- One step: a halted core changes nothing (R121); a fetch out of bounds raises `MemoryBounds` (R119); else the decoded
instruction runs (R58). -/
def step (s : State) : Host.Outcome State Fault Refusal :=
  match s.fault with
  | some _ => .next s
  | none =>
    match s.fetch with
    | .error c => .next (s.raise c)
    | .ok op => exec (decodeWord op) s

/-- `s` about to fetch and run the instruction whose bits are `w` (log 10). -/
def State.withFetchWord (s : State) (nbits w : Nat) : State := s.placeWord (BitVec.ofNat 16 (w % 2 ^ nbits))

end Sys2Proof.Machine
end

