-- ==== Sys2Proof/Machine/HostActions.lean ====
section
/-! DEFINITION. The host's actions on the core (00_scope.md R6, R7; 10_state.md R29). They fall between steps; `step` takes none
of them (log 8). -/

namespace Sys2Proof.Machine

/-- `LoadImage(bytes, len)`: the state after it and its result `load_ok` (20_memory.md R50). The result is no state of the core;
that `Session.loadOk` holds it as a level between loads is the model's choice (10_state.md R29; log 23). -/
def State.loadImage (s : State) (bytes : List Byte) : State × Bool :=
  if Config.maxImage < bytes.length then (s, false)
  else (s.setMem (s.memWith Config.progBase bytes), true)

/-- `SetKey(k, b)` (60_exceptions.md R130). -/
def State.setKey (s : State) (k : Nibble) (b : Bool) : State := { s with keys := s.keys.set k.toNat b }

/-- A timer after one tick: it counts down and stops at 0 (R128; log 16). -/
def tickByte (t : Byte) : Byte := if t = 0#8 then 0#8 else t - 1#8

/-- `TimerTick()`: one tick counts both timers down (R128). -/
def State.timerTick (s : State) : State := (s.setDT (tickByte s.dt)).setST (tickByte s.st)

/-- `Snapshot()`: the current framebuffer (45_draw.md R108). -/
def State.snapshot (s : State) : Framebuffer := s.fb

/-- `fault_out`: the latch with the codes of R25 and R116 (log 5). -/
def State.faultOut (s : State) : BitVec 2 :=
  match s.fault with
  | none => 0#2
  | some .stackOverflow => 1#2
  | some .stackUnderflow => 2#2
  | some .memoryBounds => 3#2

/-- The actions by which the host changes the core's state (R6). Reads (`Snapshot`, `dt_out`, `st_out`, `fault_out`) change nothing. -/
inductive HostAction where
  | reset
  | loadImage (bytes : List Byte)
  | setKey (k : Nibble) (b : Bool)
  | timerTick
deriving DecidableEq, Repr

/-- The state after a host action. `Reset` gives every piece of the spec's state its reset value from any state (R135, R137); the
count of draws goes on, since the generator is outside the core and is not reseeded (R83, R138; log 4). -/
def State.hostAct (s : State) : HostAction → State
  | .reset => (State.resetWith s.font).withDraws s.draws
  | .loadImage bytes => (s.loadImage bytes).1
  | .setKey k b => s.setKey k b
  | .timerTick => s.timerTick

/-- The launch state of a program image on the machine with `FONT = f` (70_reset_and_hazards.md R138, R140). -/
def State.launch (f : Font) (bytes : List Byte) : State := ((State.resetWith f).loadImage bytes).1

/-! ## The boot sequence (70_reset_and_hazards.md R138; 20_memory.md R52) -/

/-- How far the boot sequence has come. It stands beside the state, whose list in 10_state.md has no bit for it (log 10). -/
inductive BootPhase where
  /-- `Reset` was performed, and no `LoadImage` since. -/
  | afterReset
  /-- `LoadImage` gave `load_ok = 1`, and no `Step` was performed since. -/
  | loaded
  /-- `LoadImage` gave `load_ok = 0`: the host must not step. -/
  | rejected
  /-- At least one `Step` was performed. -/
  | stepping
deriving DecidableEq, Repr

/-- Whether the host may step (R138). -/
def BootPhase.maySteps : BootPhase → Bool
  | .loaded | .stepping => true
  | .afterReset | .rejected => false

/-- The core under a host that keeps the boot sequence. -/
structure Session where
  state : State
  phase : BootPhase
  /-- The output `load_ok`: the result of the last `LoadImage`, and no value before the first (10_state.md R29; log 23). -/
  loadOk : Option Bool
deriving DecidableEq, Repr

/-- After the first `Reset` of the machine with `FONT = f`, where every run starts (R137). -/
def Session.start (f : Font) : Session := ⟨State.resetWith f, .afterReset, none⟩

/-- The session after a `Step` that answered `t`. -/
def Session.stepped (z : Session) (t : State) : Session := { z with state := t, phase := .stepping }

/-- The session after a host action; none where the boot sequence forbids it, which is a `LoadImage` that is not the first since
`Reset` or comes after a `Step` (R52, R138; decision D30, log 10). `Reset` is allowed in any phase (R137), and so are `SetKey` and
`TimerTick` (R7). No action reads memory (R52). -/
def Session.host (z : Session) (a : HostAction) : Option Session :=
  match a with
  | .reset => some { z with state := z.state.hostAct .reset, phase := .afterReset }
  | .loadImage bytes =>
    if z.phase = .afterReset then
      some ⟨z.state.hostAct (.loadImage bytes), if (z.state.loadImage bytes).2 then .loaded else .rejected,
        some (z.state.loadImage bytes).2⟩
    else none
  | .setKey k b => some { z with state := z.state.hostAct (.setKey k b) }
  | .timerTick => some { z with state := z.state.hostAct .timerTick }

end Sys2Proof.Machine
end

