-- ==== Sys2Proof/Safety.lean ====
section
/-! DEFINITION. What claims are stated in: what a step leaves unchanged, a running core, the invariant of reachable states
(10_state.md R31), a safe step (60_exceptions.md R121), a run of a program and its end (70_reset_and_hazards.md R140, R148). -/

namespace Sys2Proof

/-- The instructions that write `VF` as a flag (10_state.md R14). -/
def Instr.writesFlag : Instr → Bool
  | .addReg _ _ | .sub _ _ | .shr _ _ | .subn _ _ | .shl _ _ | .drw _ _ _ => true
  | _ => false

/-- The registers an instruction has as its ordinary destination (10_state.md R15). -/
def Instr.isDest (i : Instr) (r : Nibble) : Prop :=
  match i with
  | .ldImm x _ | .addImm x _ | .ldReg x _ | .orReg x _ | .andReg x _ | .xorReg x _ | .addReg x _ | .sub x _ | .shr x _
  | .subn x _ | .shl x _ | .rnd x _ | .ldVxDT x | .ldVxK x => r = x
  | .ldVxMem x => r.toNat ≤ x.toNat
  | _ => False

end Sys2Proof

namespace Sys2Proof.Machine

/-- The pieces of state a statement can say are kept. Registers, pixels and bytes of memory are compared through their reads. -/
inductive Part where
  | regs | pc | index | stack | sp | dt | st | keys | fb | mem | fault | font | draws
deriving DecidableEq, Repr

/-- A piece of state is the same in `t` as in `s`; memory is, when every byte reads the same. -/
def Part.kept (s t : State) : Part → Prop
  | .regs => ∀ r, t.getV r = s.getV r
  | .pc => t.pc = s.pc
  | .index => t.i = s.i
  | .stack => t.stack = s.stack
  | .sp => t.sp = s.sp
  | .dt => t.dt = s.dt
  | .st => t.st = s.st
  | .keys => t.keys = s.keys
  | .fb => ∀ px py, t.fb.lit px py = s.fb.lit px py
  | .mem => ∀ a, t.byteAt a = s.byteAt a
  | .fault => t.fault = s.fault
  | .font => t.font = s.font
  | .draws => t.draws = s.draws

/-- Every piece of state outside `ps` is the same in `t` as in `s`. -/
def KeepsExcept (ps : List Part) (s t : State) : Prop := ∀ p, p ∉ ps → p.kept s t

/-- Every register outside `rs` is the same in `t` as in `s`. -/
def KeepsRegsExcept (rs : List Nibble) (s t : State) : Prop := ∀ r, r ∉ rs → t.getV r = s.getV r

/-- The core is not halted (R121). -/
def State.running (s : State) : Prop := s.fault = none

/-- The invariant of reachable states (R31), with the canonical form of memory and the unused slot (R19). -/
structure State.Inv (s : State) : Prop where
  /-- Memory is in its canonical form (log 3). -/
  memWf : s.memWf
  /-- The largest `pc` any instruction can give (R17, R31). -/
  pcBound : s.pc.toNat ≤ 0x10FE
  /-- Every live slot holds the address of a call that was fetched (R31). -/
  liveSlots : ∀ k : Fin 16, 1 ≤ k.val → k.val ≤ s.sp.val → (s.stack[k.val]).toNat ≤ 4094
  /-- Slot 0 is never written (R19). -/
  slotZero : s.stack[0] = 0#16

/-- The instruction a running core is about to execute; none where its fetch is out of bounds (R58). -/
def State.current (s : State) : Option Instr :=
  match s.fetch with
  | .ok op => some (decodeWord op)
  | .error _ => none

/-- The values a completed instruction can give `pc` (10_state.md R17). -/
def allowedPcs (i : Instr) (s : State) : List Word :=
  match i with
  | .jp nnn | .call nnn => [zextAddr nnn]
  | .jpV0 nnn => [zextAddr nnn + zextByte (s.getV 0#4)]
  | .ret => [s.stack[s.sp.val] + 2#16]
  | .seImm _ _ | .sneImm _ _ | .seReg _ _ _ | .sneReg _ _ _ | .skp _ | .sknp _ => [s.pc + 2#16, s.pc + 4#16]
  | _ => [s.pc + 2#16]

/-- Whether the sprite of `Dxyn` at `s` has a 1 at the pixel `(px, py)`: row `py - V[y]` at address `I + (py - V[y])`, its
bit 7 the leftmost column (45_draw.md R104, R106; log 17). -/
def State.spriteSets (s : State) (x y n : Nibble) (px py : Nat) : Bool :=
  (s.getV x).toNat ≤ px && px < (s.getV x).toNat + 8 && (s.getV y).toNat ≤ py && py < (s.getV y).toNat + n.toNat
    && (s.byteAt (s.i.toNat + (py - (s.getV y).toNat))).getLsbD (7 - (px - (s.getV x).toNat))

/-- The byte at `a`, as a number, once `Fx55` has stored `V[0]` to `V[x]` from `I` up (44_index_memory.md R99). -/
def State.byteAfterRegs (s : State) (x : Nibble) (a : Nat) : Nat :=
  if s.i.toNat ≤ a ∧ a ≤ s.i.toNat + x.toNat then (s.getV (BitVec.ofNat 4 (a - s.i.toNat))).toNat else (s.byteAt a).toNat

/-- The byte at `a`, as a number, once `Fx33` has stored the digits of `V[x]` from `I` up (44_index_memory.md R98). -/
def State.byteAfterDigits (s : State) (x : Nibble) (a : Nat) : Nat :=
  if a = s.i.toNat then (s.getV x).toNat / 100
  else if a = s.i.toNat + 1 then (s.getV x).toNat / 10 % 10
  else if a = s.i.toNat + 2 then (s.getV x).toNat % 10
  else (s.byteAt a).toNat

/-- `s` with another stack array, its `sp` kept. -/
def State.withStack (s : State) (w : Vector Word 16) : State := { s with stack := w }

/-- The array `w` agrees with the stack of `s` in the live slots 1 to `sp` (10_state.md R20); slot 0 and the slots above `sp`
are dead (R19; 40_flow.md R66). -/
def State.sameLiveSlots (s : State) (w : Vector Word 16) : Prop :=
  ∀ k : Fin 16, 1 ≤ k.val → k.val ≤ s.sp.val → w[k.val] = s.stack[k.val]

/-! ## Runs -/

/-- Steps and host actions in any order (00_scope.md R6, R7). It admits more than a host that keeps the boot sequence does, a
`LoadImage` between two steps among them; `Session.Reachable` admits no more than that (log 10). `FONT` is free (R48). -/
inductive Reach : State → Prop where
  | reset (f : Font) : Reach (State.resetWith f)
  | step {s t : State} : Reach s → Machine.step s = .next t → Reach t
  | host {s : State} (a : HostAction) : Reach s → Reach (s.hostAct a)

/-- The sessions of a host that keeps the boot sequence: it steps only after a load that gave `load_ok = 1`, and loads only
between `Reset` and the first `Step` (20_memory.md R52; 70_reset_and_hazards.md R138). -/
inductive Session.Reachable : Session → Prop where
  | start (f : Font) : Session.Reachable (Session.start f)
  | step {z : Session} {t : State} : Session.Reachable z → z.phase.maySteps = true → Machine.step z.state = .next t →
      Session.Reachable (z.stepped t)
  | host {z z' : Session} (a : HostAction) : Session.Reachable z → z.host a = some z' → Session.Reachable z'

/-- A run of the program `image`, with the premises of 70_reset_and_hazards.md R140: it starts in the launch state, the image fits,
the host performs no `LoadImage` and no `Reset`, `SetKey` and `TimerTick` occur between any two steps, and which byte is drawn
first is free. `FONT` is the parameter `f` (20_memory.md R48). The premise `fault = None` is `CleanRun`. -/
inductive Run (f : Font) (image : List Byte) : State → Prop where
  | launch (d : Nat) : image.length ≤ Config.maxImage → Run f image ((State.launch f image).withDraws d)
  | step {s t : State} : Run f image s → Machine.step s = .next t → Run f image t
  | setKey {s : State} (k : Nibble) (b : Bool) : Run f image s → Run f image (s.setKey k b)
  | timerTick {s : State} : Run f image s → Run f image s.timerTick

/-- A run that has not gone wrong (R140, 60_exceptions.md R121). The latch is sticky, so it was clear all along. -/
def CleanRun (f : Font) (image : List Byte) (s : State) : Prop := Run f image s ∧ s.running

/-- The self-jump: the instruction at `pc` is `1nnn` with `nnn = pc` (70_reset_and_hazards.md R148). -/
def State.atSelfJump (s : State) : Prop := ∃ nnn, s.current = some (.jp nnn) ∧ nnn.toNat = s.pc.toNat

/-- The end of a run: a self-jump with `fault = None` (R148; decision D29, log 20). -/
def State.ended (s : State) : Prop := s.running ∧ s.atSelfJump

/-- A key wait that no key ends: a fixed point of the step, but a wait and no end (R148; 46_timer_key.md R110). -/
def State.waiting (s : State) : Prop := s.running ∧ (∃ x, s.current = some (.ldVxK x)) ∧ ∀ k, s.keyHeld k = false

/-- The program `image` has run to its end in `s` (R140, R148). -/
def RunEnds (f : Font) (image : List Byte) (s : State) : Prop := Run f image s ∧ s.ended

/-- A step went well: it answered a next state in which the core still runs (R121: a set latch is "gone wrong"). -/
def State.stepsSafely (s : State) : Prop := ∃ t, Machine.step s = .next t ∧ t.running

end Sys2Proof.Machine
end

