-- ==== Sys2Proof/Certificates/Slice0/Obligations.lean ====
section
/-! DEFINITION. The statements about the machine, each from the rules of the spec its docstring names. A statement is true whatever
the free values `Config.rnd` are. A statement that cites an instruction rule whole also says which word the instruction is, its
fields side by side as the rule's encoding line has them. -/

open Sys2Proof Sys2Proof.Machine

/-! ## Encoding -/

/-- Words written out from the patterns of 30_encoding.md R59, one or more of every family (R12: a top nibble); then the near misses
of 95_test_vectors.md B8, all of them, and their nearest accepted neighbours. That 0x5127, whose low nibble is not 0, is a skip is
decision D11 (log 15, the model's choice with the spec). -/
def Obligations.HandWrittenWordsDecode : Prop :=
  decode [0x00, 0xE0] = .ok (.cls, []) ∧ decode [0x00, 0xEE] = .ok (.ret, [])
  ∧ decode [0x12, 0x34] = .ok (.jp 0x234, []) ∧ decode [0x22, 0x08] = .ok (.call 0x208, [])
  ∧ decode [0x33, 0x2A] = .ok (.seImm 3 0x2A, []) ∧ decode [0x43, 0x2A] = .ok (.sneImm 3 0x2A, [])
  ∧ decode [0x51, 0x27] = .ok (.seReg 1 2 7, []) ∧ decode [0x6A, 0x3E] = .ok (.ldImm 0xA 0x3E, [])
  ∧ decode [0x70, 0xFF] = .ok (.addImm 0 0xFF, []) ∧ decode [0x81, 0x25] = .ok (.sub 1 2, [])
  ∧ decode [0x91, 0x20] = .ok (.sneReg 1 2 0, []) ∧ decode [0xA2, 0x0E] = .ok (.ldI 0x20E, [])
  ∧ decode [0xB3, 0x00] = .ok (.jpV0 0x300, []) ∧ decode [0xC3, 0x0F] = .ok (.rnd 3 0x0F, [])
  ∧ decode [0xD1, 0x25] = .ok (.drw 1 2 5, []) ∧ decode [0xE5, 0x9E] = .ok (.skp 5, [])
  ∧ decode [0xE5, 0xA1] = .ok (.sknp 5, []) ∧ decode [0xF3, 0x0A] = .ok (.ldVxK 3, [])
  ∧ decode [0xF2, 0x65] = .ok (.ldVxMem 2, [])
  ∧ decode [0x80, 0x17] = .ok (.subn 0 1, []) ∧ decode [0x80, 0x1E] = .ok (.shl 0 1, [])
  ∧ decode [0xE0, 0x9E] = .ok (.skp 0, []) ∧ decode [0xE0, 0xA1] = .ok (.sknp 0, [])
  ∧ decode [0xF0, 0x1E] = .ok (.addI 0, []) ∧ decode [0xF0, 0x65] = .ok (.ldVxMem 0, [])
  ∧ decode [0x00, 0x00] = .ok (.undef 0x0000, []) ∧ decode [0x01, 0x23] = .ok (.undef 0x0123, [])
  ∧ decode [0x00, 0xE1] = .ok (.undef 0x00E1, []) ∧ decode [0x00, 0xFE] = .ok (.undef 0x00FE, [])
  ∧ decode [0x00, 0xEF] = .ok (.undef 0x00EF, []) ∧ decode [0x80, 0x18] = .ok (.undef 0x8018, [])
  ∧ decode [0xE0, 0x9F] = .ok (.undef 0xE09F, []) ∧ decode [0xE0, 0xA0] = .ok (.undef 0xE0A0, [])
  ∧ decode [0xE0, 0x00] = .ok (.undef 0xE000, []) ∧ decode [0xF0, 0x00] = .ok (.undef 0xF000, [])
  ∧ decode [0xF0, 0x1F] = .ok (.undef 0xF01F, []) ∧ decode [0xF0, 0x75] = .ok (.undef 0xF075, [])
  ∧ decode [0xF0, 0x85] = .ok (.undef 0xF085, []) ∧ decode [0xFF, 0xFF] = .ok (.undef 0xFFFF, [])

/-- Decoding the two bytes of any well-formed instruction gives the instruction back and leaves the bytes after it (R53, R54, R59).
That the fields the decoder does not examine are kept, so that `n` of `5xyn` and `9xyn` and `y` of the shifts come back, is the
model's choice (log 15; decision D11). -/
def Obligations.DecodeOfEncodeIsTheInstruction : Prop :=
  ∀ (i : Instr) (rest : List Byte), i.wf = true → decode (encodeBytes i ++ rest) = .ok (i, rest)

/-- Every word decodes to a well-formed instruction whose encoding is that word. That the decoder is total is R57; that the encoding
is the same word, and not the canonical one with `n = 0` of R61, holds because the constructors keep `n` of `5xyn` and `9xyn` and
`y` of the shifts, the model's choice (log 15; decision D11). -/
def Obligations.EncodeOfDecodeIsTheWord : Prop :=
  ∀ op : Word, (decodeWord op).wf = true ∧ encode (decodeWord op) = op

/-- The two-level decoder (R57) and the mask-and-match table (R59) give every word the same row, no two rows share a word, and
`undef` is every word no row matches; the rows of `5xyn` and `9xyn` leave `n` free by decision D11 (log 15). -/
def Obligations.DecoderAgreesWithOpcodeTable : Prop :=
  ∀ op : Word,
    (∀ row, rowOf (decodeWord op) = some row → ∀ row' ∈ opcodeRows, (row'.hits op = true ↔ row' = row))
    ∧ (∀ row, rowOf (decodeWord op) = some row → row ∈ opcodeRows)
    ∧ (decodeWord op = .undef op ↔ ∀ row ∈ opcodeRows, row.hits op = false)

/-- The unrecognized words are exactly those of the families of R60; its counts are not stated. That no `5xyn` or `9xyn` is among
them is decision D11 (log 15). -/
def Obligations.UnrecognizedWordsAreTheListedOnes : Prop :=
  ∀ op : Word, decodeWord op = .undef op ↔
    (op.toNat < 0x1000 ∧ op.toNat ≠ 0x00E0 ∧ op.toNat ≠ 0x00EE)
    ∨ (op.toNat / 0x1000 = 8 ∧ (8 ≤ op.toNat % 16 ∧ op.toNat % 16 ≠ 14))
    ∨ (op.toNat / 0x1000 = 14 ∧ op.toNat % 256 ≠ 0x9E ∧ op.toNat % 256 ≠ 0xA1)
    ∨ (op.toNat / 0x1000 = 15 ∧ op.toNat % 256 ∉ [0x07, 0x0A, 0x15, 0x18, 0x1E, 0x29, 0x33, 0x55, 0x65])

/-! ## Reset and the host's actions -/

/-- What `Reset` leaves (R30, R135), performed in any state (R137) of a machine with any `FONT` (R48): every piece of the spec's
state has its reset value, and the model's count of draws goes on (log 4). The values of `I`, the stack and the latch are the spec's
decisions D6 and D2 and that all of memory is reset is D7 (log 5). `State.reset` is the case of the default `FONT`, decision D23;
no byte of it is named (log 2). -/
def Obligations.ResetLeavesTheListedValues : Prop :=
  (∀ f : Font, let s := State.resetWith f
    (∀ r, s.getV r = 0) ∧ s.pc = 0x200 ∧ s.i = 0 ∧ s.sp.val = 0
    ∧ (∀ k : Fin 16, s.stack[k.val] = 0) ∧ s.dt = 0 ∧ s.st = 0
    ∧ (∀ k, s.keyHeld k = false) ∧ (∀ px py, s.fb.lit px py = false)
    ∧ (∀ a (h : a < 80), s.byteAt a = f[a]) ∧ (∀ a, 80 ≤ a → a ≤ 4095 → s.byteAt a = 0)
    ∧ s.fault = none)
  ∧ State.reset = State.resetWith defaultFont
  ∧ ∀ s : State, s.hostAct .reset = { State.resetWith s.font with draws := s.draws }

/-- `LoadImage`: an image of at most 3584 bytes is copied to 0x200 and up and nothing else changes; a larger one changes nothing
and answers 0 (R50). -/
def Obligations.LoadImageCopiesOrRejects : Prop :=
  ∀ (s : State) (bytes : List Byte), s.memWf →
    (bytes.length ≤ 3584 → (s.loadImage bytes).2 = true
      ∧ (∀ k (h : k < bytes.length), (s.loadImage bytes).1.byteAt (0x200 + k) = bytes[k])
      ∧ (∀ a, (a < 0x200 ∨ 0x200 + bytes.length ≤ a) → (s.loadImage bytes).1.byteAt a = s.byteAt a)
      ∧ KeepsExcept [.mem] s (s.loadImage bytes).1)
    ∧ (3584 < bytes.length → (s.loadImage bytes).2 = false ∧ (s.loadImage bytes).1 = s)

/-- `SetKey(k, b)` gives key `k` the value `b` and changes nothing else (R130). -/
def Obligations.SetKeyWritesOneKey : Prop :=
  ∀ (s : State) (k : Nibble) (b : Bool),
    (∀ j, (s.setKey k b).keyHeld j = if j = k then b else s.keyHeld j) ∧ KeepsExcept [.keys] s (s.setKey k b)

/-- `TimerTick` counts each timer down by one and leaves a timer at 0 where it is (R128; the stop at 0 is the spec's own, D22,
log 16); it changes nothing else, on a halted core too (R121). -/
def Obligations.TimerTickCountsDownToZero : Prop :=
  ∀ s : State, s.timerTick.dt.toNat = s.dt.toNat - 1 ∧ s.timerTick.st.toNat = s.st.toNat - 1
    ∧ KeepsExcept [.dt, .st] s s.timerTick

/-- The fault latch is left only by `Reset` (R25, R121, R122; the latch is the spec's own, D2, log 5; that a halted core answers
a next state is log 1). -/
def Obligations.OnlyResetClearsTheFaultLatch : Prop :=
  ∀ (s : State) (c : Fatal), s.fault = some c →
    (∀ t, step s = .next t → t.fault = some c)
    ∧ (∀ a : HostAction, a ≠ .reset → (s.hostAct a).fault = some c) ∧ (s.hostAct .reset).fault = none

/-- Two memories in the canonical form whose every byte reads the same, with one `FONT`, are the same data (log 3). -/
def Obligations.CanonicalMemoriesAreEqualWhenTheyReadAlike : Prop :=
  ∀ (f : Font) (m n : Memory), m.wf f → n.wf f → (∀ a, m.read f a = n.read f a) → m = n

/-! ## The step -/

/-- A running core whose bytes at `pc` decode to `i` executes `i`: `step` adds nothing around `exec` (R41, R58). That every `pc` up
to 4094 can be fetched from, an odd one and one below 0x200 too, is decision D8 (log 6). -/
def Obligations.StepRunsTheDecodedInstruction : Prop :=
  ∀ (s : State) (i : Instr), s.running → s.pc.toNat ≤ 4094 →
    decode [s.byteAt s.pc.toNat, s.byteAt (s.pc.toNat + 1)] = .ok (i, []) → step s = exec i s

/-- A step that would fetch above 4095 raises `MemoryBounds` and changes nothing else (R58, R119; decisions D8 and D26, log 6;
that it is a next state is log 1). -/
def Obligations.FetchOutOfBoundsRaises : Prop :=
  ∀ s : State, s.running → 4094 < s.pc.toNat →
    ∃ t, step s = .next t ∧ t.fault = some .memoryBounds ∧ KeepsExcept [.fault] s t

/-- While the latch is set a step changes nothing and emits no event (R121; decision D2, log 5; that it answers a next state is
log 1). -/
def Obligations.HaltedCoreChangesNothing : Prop :=
  ∀ s : State, ¬ s.running → step s = .next s ∧ stepEvent s = none

/-- No state makes a step stop: every step answers a next state. That a fatal step and a step of a halted core do so, the latch
set and the rest kept, is the model's reading of the spec (log 1, DEDUCED from decisions D1, D2 and D3). -/
def Obligations.EveryStepAnswersANextState : Prop :=
  ∀ s : State, ∃ t, step s = .next t

/-- The three outcomes of a step of a running core: completed, with `pc` given a value R17 allows; held in `Fx0A` with no key held
and nothing changed; or fatal, with the latch set and nothing else changed (R8; decisions D1 and D3, log 1). -/
def Obligations.StepCompletesHoldsOrFails : Prop :=
  ∀ s : State, s.running → ∃ t, step s = .next t ∧
    ((∃ i, s.current = some i ∧ exec i s = .next t ∧ t.running ∧ t.pc ∈ allowedPcs i s)
    ∨ (∃ x, s.current = some (.ldVxK x) ∧ (∀ k, s.keyHeld k = false) ∧ t = s)
    ∨ (∃ c, t = s.raise c))

/-- When a step of a running core raises which fatal condition, and that it then changes nothing else (R116 to R120, R123;
decisions D2, D3, D4, D26, log 1). That the fetch makes the one check of `pc` is decision D8 (log 6); that `Dxyn` checks all `n`
rows, clipped ones too, and nothing for `n = 0` is decision D14 (log 18). -/
def Obligations.FatalConditionsAreTheListedOnes : Prop :=
  ∀ s : State, s.running → ∃ t, step s = .next t
    ∧ (t.fault = some .stackOverflow ↔ (∃ nnn, s.current = some (.call nnn)) ∧ s.sp.val = 15)
    ∧ (t.fault = some .stackUnderflow ↔ s.current = some .ret ∧ s.sp.val = 0)
    ∧ (t.fault = some .memoryBounds ↔ 4094 < s.pc.toNat
        ∨ (∃ x y n, s.current = some (.drw x y n) ∧ 0 < n.toNat ∧ 4095 < s.i.toNat + n.toNat - 1)
        ∨ (∃ x, s.current = some (.ldB x) ∧ 4095 < s.i.toNat + 2)
        ∨ (∃ x, (s.current = some (.ldMemVx x) ∨ s.current = some (.ldVxMem x)) ∧ 4095 < s.i.toNat + x.toNat))
    ∧ (∀ c, t.fault = some c → KeepsExcept [.fault] s t)

/-- A step emits the diagnostic event, with the address and the word, exactly when it executes an unrecognized opcode (R28, R115;
that the event is a function beside the state is the model's choice, log 7). -/
def Obligations.OnlyUnrecognizedOpcodesEmitTheEvent : Prop :=
  ∀ s : State, (∀ op, s.running → s.current = some (.undef op) → stepEvent s = some ⟨s.pc, op⟩)
    ∧ (∀ e, stepEvent s = some e → s.running ∧ e.pc = s.pc ∧ s.current = some (.undef e.op))

/-! ## Invariants -/

/-- The state after reset meets the invariant (R30, R31). -/
def Obligations.ResetMeetsTheInvariant : Prop := State.reset.Inv

/-- Every step keeps the invariant: memory stays canonical, `pc` stays at most 0x10FE, every live slot holds the address of a call
that was fetched, slot 0 stays unwritten (R17, R19, R31; that slot 0 is unused is decision D4, log 19, and that `pc` is checked
at the fetch alone D8, log 6; the form of memory is log 3). -/
def Obligations.StepKeepsTheInvariant : Prop :=
  ∀ s t : State, s.Inv → step s = .next t → t.Inv

/-- Every host action keeps the invariant (R31), wherever in a run it falls (a load outside the boot sequence too, log 10). -/
def Obligations.HostActionsKeepTheInvariant : Prop :=
  ∀ (s : State) (a : HostAction), s.Inv → (s.hostAct a).Inv

/-- Every state reachable by steps and host actions in any order meets the invariant (R31), and so does every state of a session
whose host keeps the boot sequence (R52, R138; decision D30, log 10) and of a run of a program from its launch state (R140). In a
session the host steps only after a load that fitted, and loads only while memory is as `Reset` left it; that `load_ok` is a
level which steps, keys and ticks keep is the model's choice (log 23; R29, decision D1). `FONT` is any (log 2). -/
def Obligations.ReachableStatesMeetTheInvariant : Prop :=
  (∀ s : State, Reach s → s.Inv)
  ∧ (∀ z : Session, z.Reachable → z.state.Inv ∧ (z.phase.maySteps = true → z.loadOk = some true)
      ∧ (∀ (z' : Session) (bytes : List Byte), z.host (.loadImage bytes) = some z' → z.state.mem = State.reset.mem))
  ∧ (∀ (f : Font) (image : List Byte) (s : State), Run f image s → s.Inv)

/-! ## Rules of the whole machine -/

/-- Of the instructions only `Fx33` and `Fx55` write memory, and only `00E0` and `Dxyn` the framebuffer (R40, R107); of the host's
actions only `Reset` and `LoadImage` write memory (R52), and only `Reset` the framebuffer (R107). Nothing changes the parameter `FONT`
(R48; that it stands in the state is the model's choice, log 2). -/
def Obligations.OnlyStoresWriteMemoryAndOnlyDrawsWritePixels : Prop :=
  (∀ (i : Instr) (s t : State), exec i s = .next t →
    ((∀ x, i ≠ .ldB x ∧ i ≠ .ldMemVx x) → t.mem = s.mem)
    ∧ ((i ≠ .cls ∧ ∀ x y n, i ≠ .drw x y n) → t.fb = s.fb) ∧ t.font = s.font)
  ∧ ∀ (s : State) (a : HostAction), (a ≠ .reset →
    ((∀ bytes, a ≠ .loadImage bytes) → (s.hostAct a).mem = s.mem) ∧ (s.hostAct a).fb = s.fb) ∧ (s.hostAct a).font = s.font

/-- Only `2nnn` and `00EE` change the stack or its pointer, a return changes no slot, and slot 0 is never changed (R19, R26, R66;
that slot 0 is unused is decision D4, log 19); and no other instruction reads them: with another stack and pointer it does the
same to the rest of the state. -/
def Obligations.OnlyCallAndReturnReachTheStack : Prop :=
  ∀ (i : Instr) (s t : State), exec i s = .next t →
    ((∀ nnn, i ≠ .call nnn) → t.stack = s.stack)
    ∧ ((i ≠ .ret ∧ ∀ nnn, i ≠ .call nnn) → t.sp = s.sp
        ∧ ∀ (p : Fin 16) (w : Vector Word 16), exec i (s.setStack p w) = .next (t.setStack p w))
    ∧ t.stack[0] = s.stack[0]

/-- `I` is written only by `Annn`, `Fx1E` and `Fx29`; `DT` only by `Fx15`, `ST` only by `Fx18`, no key by any instruction, and a
random byte is consumed only by `Cxkk` (R18, R21, R22, R26, R83, R101; that `Dxyn`, `Fx33`, `Fx55` and `Fx65` leave `I` is
decision D20, log 21; the counter of draws is the model's own, log 4). -/
def Obligations.IndexTimersKeysAndDrawsHaveTheirWriters : Prop :=
  ∀ (i : Instr) (s t : State), exec i s = .next t →
    ((∀ nnn x, i ≠ .ldI nnn ∧ i ≠ .addI x ∧ i ≠ .ldF x) → t.i = s.i)
    ∧ ((∀ x, i ≠ .ldDTVx x) → t.dt = s.dt) ∧ ((∀ x, i ≠ .ldSTVx x) → t.st = s.st)
    ∧ t.keys = s.keys ∧ ((∀ x kk, i ≠ .rnd x kk) → t.draws = s.draws)

/-- A register changes only where it is the instruction's ordinary destination (R15), but `VF`, which the six flag-writing
instructions write too; each that completes leaves 0 or 1 there (R14, R84; decisions D10 and D28, log 22). -/
def Obligations.RegistersChangeOnlyAsDestinationOrFlag : Prop :=
  ∀ (i : Instr) (s t : State), exec i s = .next t →
    (∀ r, ¬ i.isDest r → ¬ (i.writesFlag = true ∧ r = flagReg) → t.getV r = s.getV r)
    ∧ (i.writesFlag = true → s.running → t.running → t.getV flagReg = 0 ∨ t.getV flagReg = 1)

/-- The sound timer never reaches the rest of the core: steps of two states that differ in `ST` alone end in states that differ in
`ST` alone, and both steps emit the same event, if any (R21, R112, R129; the event is a function beside the state, log 7). -/
def Obligations.SoundTimerNeverInfluencesTheCore : Prop :=
  ∀ (s : State) (b : Byte), ∃ t b', step s = .next t ∧ step (s.setST b) = .next (t.setST b')
    ∧ stepEvent (s.setST b) = stepEvent s

/-- Dead stack slots, slot 0 and those above `sp`, never reach the rest of the core: a step from states that agree elsewhere ends
in states that agree elsewhere (R19, R20, R66; that slot 0 is unused is decision D4, log 19). -/
def Obligations.DeadStackSlotsNeverInfluenceTheCore : Prop :=
  ∀ (s : State) (w : Vector Word 16), s.sameLiveSlots w →
    ∃ t w', step s = .next t ∧ step (s.withStack w) = .next (t.withStack w') ∧ t.sameLiveSlots w'

/-! ## Control transfer -/

/-- `00EE`: `pc` becomes the popped address plus 2 and `sp` falls by one, or on the empty stack `StackUnderflow` is raised and
nothing else changes (R66, R67, R118; the latch is decision D2, log 5; the failing step is a next state, log 1; `sp = 0` is the
empty stack by D4, log 19). -/
def Obligations.ReturnPopsAndSkipsTheCall : Prop :=
  ∀ s : State,
    (s.sp.val ≠ 0 → ∃ t, exec .ret s = .next t ∧ t.pc.toNat = ((s.stack[s.sp.val]).toNat + 2) % 65536
      ∧ t.sp.val + 1 = s.sp.val ∧ KeepsExcept [.pc, .sp] s t)
    ∧ (s.sp.val = 0 → ∃ t, exec .ret s = .next t ∧ t.fault = some .stackUnderflow ∧ KeepsExcept [.fault] s t)

/-- `1nnn`: `pc` becomes `nnn` and nothing else changes (R68). -/
def Obligations.JumpSetsThePc : Prop :=
  ∀ (s : State) (nnn : Addr12),
    decodeWord (0x1#4 ++ nnn) = .jp nnn ∧ ∃ t, exec (.jp nnn) s = .next t ∧ t.pc.toNat = nnn.toNat ∧ KeepsExcept [.pc] s t

/-- `2nnn`: `sp` rises by one, the slot it then names takes the address of the call, `pc` becomes `nnn`; with `sp = 15`
`StackOverflow` is raised and nothing else changes (R65, R69, R117; decision D4, log 19; the latch is D2, log 5;
the failing step is a next state, log 1). -/
def Obligations.CallPushesItsOwnAddress : Prop :=
  ∀ (s : State) (nnn : Addr12),
    (s.sp.val ≠ 15 → ∃ t, exec (.call nnn) s = .next t ∧ t.pc.toNat = nnn.toNat ∧ t.sp.val = s.sp.val + 1
      ∧ (∀ k : Fin 16, t.stack[k.val] = if k.val = s.sp.val + 1 then s.pc else s.stack[k.val])
      ∧ KeepsExcept [.pc, .sp, .stack] s t)
    ∧ (s.sp.val = 15 → ∃ t, exec (.call nnn) s = .next t ∧ t.fault = some .stackOverflow ∧ KeepsExcept [.fault] s t)

/-- `Bnnn`: `pc` becomes `nnn + V[0]`, not reduced modulo 4096, and nothing else changes (R70). -/
def Obligations.JumpWithOffsetAddsRegisterZero : Prop :=
  ∀ (s : State) (nnn : Addr12),
    decodeWord (0xB#4 ++ nnn) = .jpV0 nnn ∧ ∃ t, exec (.jpV0 nnn) s = .next t ∧ t.pc.toNat = nnn.toNat + (s.getV 0).toNat
    ∧ KeepsExcept [.pc] s t

/-- A call and the return after it resume behind the call with `sp` as it was, and leave everything else but the one slot the call
wrote as it was (R71 e); the bound `sp < 15` is decision D4 (log 19). -/
def Obligations.CallThenReturnResumesBehindTheCall : Prop :=
  ∀ (s : State) (nnn : Addr12), s.sp.val < 15 → ∃ t u, exec (.call nnn) s = .next t ∧ exec .ret t = .next u
    ∧ u.pc.toNat = (s.pc.toNat + 2) % 65536 ∧ u.sp = s.sp ∧ KeepsExcept [.pc, .stack] s u
    ∧ (∀ k : Fin 16, k.val ≠ s.sp.val + 1 → u.stack[k.val] = s.stack[k.val])

/-- A running core that has fetched a jump to its own address is at the end of its run and a step leaves it as it is (R68); the
end of a run is the convention of R148, decision D29 (log 20). The fixed points of a running core are these, a key wait with no key
held, which is a wait and no end (R148), and a `Bnnn` to its own address (R70), which the convention does not count. -/
def Obligations.SelfJumpIsAFixedPoint : Prop :=
  (∀ (s : State) (nnn : Addr12), s.running → s.pc.toNat ≤ 4094 → nnn.toNat = s.pc.toNat →
    s.byteAt s.pc.toNat = (encode (.jp nnn)).extractLsb' 8 8 →
    s.byteAt (s.pc.toNat + 1) = (encode (.jp nnn)).extractLsb' 0 8 → s.ended ∧ step s = .next s)
  ∧ ∀ s : State, s.running → (step s = .next s ↔ s.ended ∨ s.waiting
      ∨ ∃ nnn, s.current = some (.jpV0 nnn) ∧ nnn.toNat + (s.getV 0).toNat = s.pc.toNat)

/-! ## Skips -/

/-- `3xkk` and `4xkk`: `pc + 4` where `V[x]` equals, respectively differs from, `kk`, else `pc + 2`; nothing else changes
(R72, R73, R74). -/
def Obligations.SkipsOnAnImmediate : Prop :=
  ∀ (s : State) (x : Nibble) (kk : Byte),
    decodeWord (0x3#4 ++ x ++ kk) = .seImm x kk ∧ decodeWord (0x4#4 ++ x ++ kk) = .sneImm x kk
    ∧ (∃ t, exec (.seImm x kk) s = .next t ∧ t.pc = (if (s.getV x).toNat = kk.toNat then s.pc + 4 else s.pc + 2)
      ∧ KeepsExcept [.pc] s t)
    ∧ (∃ t, exec (.sneImm x kk) s = .next t ∧ t.pc = (if (s.getV x).toNat = kk.toNat then s.pc + 2 else s.pc + 4)
      ∧ KeepsExcept [.pc] s t)

/-- `5xyn` and `9xyn`: the same for two registers, for every low nibble (R72, R75, R76; that the nibble has no effect is decision
D11, log 15). -/
def Obligations.SkipsOnTwoRegisters : Prop :=
  ∀ (s : State) (x y n : Nibble),
    (∃ t, exec (.seReg x y n) s = .next t ∧ t.pc = (if (s.getV x).toNat = (s.getV y).toNat then s.pc + 4 else s.pc + 2)
      ∧ KeepsExcept [.pc] s t)
    ∧ (∃ t, exec (.sneReg x y n) s = .next t ∧ t.pc = (if (s.getV x).toNat = (s.getV y).toNat then s.pc + 2 else s.pc + 4)
      ∧ KeepsExcept [.pc] s t)

/-- `Ex9E` and `ExA1`: a skip if the key named by the low nibble of `V[x]` is held, respectively not held (R72, R77, R78; that the
low nibble is used is decision D17, log 11). -/
def Obligations.SkipsOnAKey : Prop :=
  ∀ (s : State) (x k : Nibble), k.toNat = (s.getV x).toNat % 16 →
    (∃ t, exec (.skp x) s = .next t ∧ t.pc = (if s.keyHeld k = true then s.pc + 4 else s.pc + 2) ∧ KeepsExcept [.pc] s t)
    ∧ (∃ t, exec (.sknp x) s = .next t ∧ t.pc = (if s.keyHeld k = true then s.pc + 2 else s.pc + 4) ∧ KeepsExcept [.pc] s t)

/-! ## Immediates and random -/

/-- `6xkk`: `V[x]` becomes `kk` and every other register is kept (R79). -/
def Obligations.LoadImmediateSetsTheRegister : Prop :=
  ∀ (s : State) (x : Nibble) (kk : Byte),
    decodeWord (0x6#4 ++ x ++ kk) = .ldImm x kk ∧ ∃ t, exec (.ldImm x kk) s = .next t ∧ t.getV x = kk ∧ t.pc = s.pc + 2
    ∧ KeepsRegsExcept [x] s t ∧ KeepsExcept [.regs, .pc] s t

/-- `7xkk`: `V[x]` becomes `(V[x] + kk) mod 256` and every other register, `VF` among them, is kept (R80). -/
def Obligations.AddImmediateWrapsWithoutAFlag : Prop :=
  ∀ (s : State) (x : Nibble) (kk : Byte),
    decodeWord (0x7#4 ++ x ++ kk) = .addImm x kk ∧ ∃ t, exec (.addImm x kk) s = .next t
    ∧ (t.getV x).toNat = ((s.getV x).toNat + kk.toNat) % 256 ∧ t.pc = s.pc + 2
    ∧ KeepsRegsExcept [x] s t ∧ KeepsExcept [.regs, .pc] s t

/-- `Annn`: `I` becomes `nnn` and nothing else but `pc` changes (R81). -/
def Obligations.LoadIndexSetsI : Prop :=
  ∀ (s : State) (nnn : Addr12),
    decodeWord (0xA#4 ++ nnn) = .ldI nnn ∧ ∃ t, exec (.ldI nnn) s = .next t ∧ t.i.toNat = nnn.toNat ∧ t.pc = s.pc + 2
    ∧ KeepsExcept [.index, .pc] s t

/-- `Cxkk`: bit `k` of `V[x]` is bit `k` of the byte drawn where bit `k` of `kk` is 1, and 0 elsewhere; one draw is consumed (R82,
R83; the byte drawn is the free value of log 4). -/
def Obligations.RandomIsMaskedByTheImmediate : Prop :=
  ∀ (s : State) (x : Nibble) (kk : Byte), ∃ t, exec (.rnd x kk) s = .next t
    ∧ (∀ k, k < 8 → (t.getV x).getLsbD k = ((Config.rnd s.draws).getLsbD k && kk.getLsbD k))
    ∧ t.pc = s.pc + 2 ∧ t.draws = s.draws + 1 ∧ KeepsRegsExcept [x] s t ∧ KeepsExcept [.regs, .pc, .draws] s t

/-! ## The ALU -/

/-- `8xy0` to `8xy3`: copy, OR, AND and XOR, bit by bit; every other register, `VF` among them, is kept (R85 to R88; that
`VF` is left alone is decision D28, log 22). -/
def Obligations.CopyAndBitwiseOperations : Prop :=
  ∀ (s : State) (x y : Nibble),
    decodeWord (0x8#4 ++ x ++ y ++ 0x0#4) = .ldReg x y ∧ decodeWord (0x8#4 ++ x ++ y ++ 0x1#4) = .orReg x y
    ∧ decodeWord (0x8#4 ++ x ++ y ++ 0x2#4) = .andReg x y ∧ decodeWord (0x8#4 ++ x ++ y ++ 0x3#4) = .xorReg x y
    ∧ (∃ t, exec (.ldReg x y) s = .next t ∧ t.getV x = s.getV y ∧ t.pc = s.pc + 2
      ∧ KeepsRegsExcept [x] s t ∧ KeepsExcept [.regs, .pc] s t)
    ∧ (∃ t, exec (.orReg x y) s = .next t
      ∧ (∀ k, k < 8 → (t.getV x).getLsbD k = ((s.getV x).getLsbD k || (s.getV y).getLsbD k)) ∧ t.pc = s.pc + 2
      ∧ KeepsRegsExcept [x] s t ∧ KeepsExcept [.regs, .pc] s t)
    ∧ (∃ t, exec (.andReg x y) s = .next t
      ∧ (∀ k, k < 8 → (t.getV x).getLsbD k = ((s.getV x).getLsbD k && (s.getV y).getLsbD k)) ∧ t.pc = s.pc + 2
      ∧ KeepsRegsExcept [x] s t ∧ KeepsExcept [.regs, .pc] s t)
    ∧ (∃ t, exec (.xorReg x y) s = .next t
      ∧ (∀ k, k < 8 → (t.getV x).getLsbD k = ((s.getV x).getLsbD k ^^ (s.getV y).getLsbD k)) ∧ t.pc = s.pc + 2
      ∧ KeepsRegsExcept [x] s t ∧ KeepsExcept [.regs, .pc] s t)

/-- `8xy4`: the sum modulo 256 in `V[x]`, and last the carry in `VF`, where `x = 15` leaves the carry (R89; the order of the two
writes is decision D10, log 22). -/
def Obligations.AddWithCarryOut : Prop :=
  ∀ (s : State) (x y : Nibble),
    decodeWord (0x8#4 ++ x ++ y ++ 0x4#4) = .addReg x y ∧ ∃ t, exec (.addReg x y) s = .next t
    ∧ (x ≠ flagReg → (t.getV x).toNat = ((s.getV x).toNat + (s.getV y).toNat) % 256)
    ∧ (t.getV flagReg).toNat = (if 255 < (s.getV x).toNat + (s.getV y).toNat then 1 else 0)
    ∧ t.pc = s.pc + 2 ∧ KeepsRegsExcept [x, flagReg] s t ∧ KeepsExcept [.regs, .pc] s t

/-- `8xy5`: `V[x] - V[y]` modulo 256 in `V[x]`, and last NOT borrow in `VF` (R90; the order of the two writes is decision D10,
log 22). -/
def Obligations.SubtractWithNotBorrow : Prop :=
  ∀ (s : State) (x y : Nibble),
    decodeWord (0x8#4 ++ x ++ y ++ 0x5#4) = .sub x y ∧ ∃ t, exec (.sub x y) s = .next t
    ∧ (x ≠ flagReg → (t.getV x).toNat = ((s.getV x).toNat + 256 - (s.getV y).toNat) % 256)
    ∧ (t.getV flagReg).toNat = (if (s.getV y).toNat ≤ (s.getV x).toNat then 1 else 0)
    ∧ t.pc = s.pc + 2 ∧ KeepsRegsExcept [x, flagReg] s t ∧ KeepsExcept [.regs, .pc] s t

/-- `8xy7`: `V[y] - V[x]` modulo 256 in `V[x]`, and last NOT borrow in `VF` (R92; the order of the two writes is decision D10,
log 22). -/
def Obligations.ReverseSubtractWithNotBorrow : Prop :=
  ∀ (s : State) (x y : Nibble),
    decodeWord (0x8#4 ++ x ++ y ++ 0x7#4) = .subn x y ∧ ∃ t, exec (.subn x y) s = .next t
    ∧ (x ≠ flagReg → (t.getV x).toNat = ((s.getV y).toNat + 256 - (s.getV x).toNat) % 256)
    ∧ (t.getV flagReg).toNat = (if (s.getV x).toNat ≤ (s.getV y).toNat then 1 else 0)
    ∧ t.pc = s.pc + 2 ∧ KeepsRegsExcept [x, flagReg] s t ∧ KeepsExcept [.regs, .pc] s t

/-- `8xy6` and `8xyE`: `V[x]` shifted by one in place, and last the bit shifted out in `VF`; `y` has no effect (R91, R93; that
`V[x]` is shifted in place is decision D9, log 13). -/
def Obligations.ShiftsCaptureTheLostBit : Prop :=
  ∀ (s : State) (x y : Nibble),
    (∃ t, exec (.shr x y) s = .next t ∧ (x ≠ flagReg → (t.getV x).toNat = (s.getV x).toNat / 2)
      ∧ (t.getV flagReg).toNat = (s.getV x).toNat % 2
      ∧ t.pc = s.pc + 2 ∧ KeepsRegsExcept [x, flagReg] s t ∧ KeepsExcept [.regs, .pc] s t)
    ∧ (∃ t, exec (.shl x y) s = .next t ∧ (x ≠ flagReg → (t.getV x).toNat = 2 * (s.getV x).toNat % 256)
      ∧ (t.getV flagReg).toNat = (s.getV x).toNat / 128
      ∧ t.pc = s.pc + 2 ∧ KeepsRegsExcept [x, flagReg] s t ∧ KeepsExcept [.regs, .pc] s t)

/-! ## The index register and memory -/

/-- `Fx1E` adds `V[x]` to `I` modulo 65536, and `Fx29` sets `I` to `V[x] * 5`, unmasked; neither writes a flag (R96, R97; decisions
D18 and D19, logs 14 and 21). -/
def Obligations.IndexArithmetic : Prop :=
  ∀ (s : State) (x : Nibble),
    (∃ t, exec (.addI x) s = .next t ∧ t.i.toNat = (s.i.toNat + (s.getV x).toNat) % 65536 ∧ t.pc = s.pc + 2
      ∧ KeepsExcept [.index, .pc] s t)
    ∧ (∃ t, exec (.ldF x) s = .next t ∧ t.i.toNat = (s.getV x).toNat * 5 ∧ t.pc = s.pc + 2 ∧ KeepsExcept [.index, .pc] s t)

/-- `Fx33` in bounds: hundreds, tens and ones of `V[x]` at `I`, `I + 1`, `I + 2`, and every other byte as before (R98, R101;
decision D20, log 21). -/
def Obligations.DecimalDigitsAreStored : Prop :=
  ∀ (s : State) (x : Nibble), s.memWf → s.i.toNat + 2 ≤ 4095 → ∃ t, exec (.ldB x) s = .next t
    ∧ (t.byteAt s.i.toNat).toNat = (s.getV x).toNat / 100
    ∧ (t.byteAt (s.i.toNat + 1)).toNat = (s.getV x).toNat / 10 % 10
    ∧ (t.byteAt (s.i.toNat + 2)).toNat = (s.getV x).toNat % 10
    ∧ (∀ a, (a < s.i.toNat ∨ s.i.toNat + 3 ≤ a) → t.byteAt a = s.byteAt a)
    ∧ t.pc = s.pc + 2 ∧ KeepsExcept [.mem, .pc] s t

/-- `Fx55` in bounds: byte `I + r` becomes `V[r]` for every `r` up to `x`, and every other byte as before (R99, R101; decision D20,
log 21). -/
def Obligations.RegistersAreStored : Prop :=
  ∀ (s : State) (x : Nibble), s.memWf → s.i.toNat + x.toNat ≤ 4095 → ∃ t, exec (.ldMemVx x) s = .next t
    ∧ (∀ r : Nibble, r.toNat ≤ x.toNat → t.byteAt (s.i.toNat + r.toNat) = s.getV r)
    ∧ (∀ a, (a < s.i.toNat ∨ s.i.toNat + x.toNat + 1 ≤ a) → t.byteAt a = s.byteAt a)
    ∧ t.pc = s.pc + 2 ∧ KeepsExcept [.mem, .pc] s t

/-- `Fx65` in bounds: `V[r]` becomes byte `I + r` for every `r` up to `x`; the registers above `x`, `I` and memory are kept (R100,
R101; decision D20, log 21). -/
def Obligations.RegistersAreLoaded : Prop :=
  ∀ (s : State) (x : Nibble), s.i.toNat + x.toNat ≤ 4095 → ∃ t, exec (.ldVxMem x) s = .next t
    ∧ (∀ r : Nibble, t.getV r = if r.toNat ≤ x.toNat then s.byteAt (s.i.toNat + r.toNat) else s.getV r)
    ∧ t.pc = s.pc + 2 ∧ KeepsExcept [.regs, .pc] s t

/-- `Fx33`, `Fx55`, `Fx65` and `Dxyn` whose range reaches above 4095 raise `MemoryBounds` and change nothing else; no part of the
access is made (R39, R98 to R101, R104, R119; decisions D3 and D26, log 1). That `Dxyn` checks all `n` rows, those that would be
clipped too, and nothing for `n = 0` is decision D14 (log 18). -/
def Obligations.AccessOutOfBoundsRaisesAndChangesNothing : Prop :=
  ∀ s : State,
    (∀ x, 4095 < s.i.toNat + 2 →
      ∃ t, exec (.ldB x) s = .next t ∧ t.fault = some .memoryBounds ∧ KeepsExcept [.fault] s t)
    ∧ (∀ x : Nibble, 4095 < s.i.toNat + x.toNat →
      (∃ t, exec (.ldMemVx x) s = .next t ∧ t.fault = some .memoryBounds ∧ KeepsExcept [.fault] s t)
      ∧ (∃ t, exec (.ldVxMem x) s = .next t ∧ t.fault = some .memoryBounds ∧ KeepsExcept [.fault] s t))
    ∧ (∀ x y n : Nibble, 0 < n.toNat → 4095 < s.i.toNat + n.toNat - 1 →
      ∃ t, exec (.drw x y n) s = .next t ∧ t.fault = some .memoryBounds ∧ KeepsExcept [.fault] s t)

/-- Registers stored by `Fx55` and then loaded by `Fx65` from a state in which every byte of memory reads as the store left it and
`I` is what the store left, whatever else that state holds, are the registers stored (R99 to R101, 95_test_vectors.md A9). That the
`I` left is still the base of the store is decision D20 (log 21). -/
def Obligations.StoreThenLoadRestoresTheRegisters : Prop :=
  ∀ (s t u : State) (x : Nibble), s.memWf → s.i.toNat + x.toNat ≤ 4095 → exec (.ldMemVx x) s = .next t →
    (∀ a, u.byteAt a = t.byteAt a) → u.i = t.i →
    ∃ w, exec (.ldVxMem x) u = .next w ∧ (∀ r : Nibble, r.toNat ≤ x.toNat → w.getV r = s.getV r)
      ∧ (∀ r : Nibble, x.toNat < r.toNat → w.getV r = u.getV r)

/-- A store is seen by the very next fetch, whether `Fx55` or `Fx33` makes it and whether it writes both bytes of the next word, one
of them or none: the next opcode is those two bytes as the store left them, the one at the lower address high (R41, R47, R98, R99;
that `I` is the base is R101). -/
def Obligations.StoreIsSeenByTheNextFetch : Prop :=
  ∀ (s : State) (x : Nibble), s.memWf → s.pc.toNat + 3 ≤ 4095 →
    (s.i.toNat + x.toNat ≤ 4095 → ∃ t op, exec (.ldMemVx x) s = .next t ∧ t.fetch = .ok op
      ∧ op.toNat = s.byteAfterRegs x (s.pc.toNat + 2) * 256 + s.byteAfterRegs x (s.pc.toNat + 3))
    ∧ (s.i.toNat + 2 ≤ 4095 → ∃ t op, exec (.ldB x) s = .next t ∧ t.fetch = .ok op
      ∧ op.toNat = s.byteAfterDigits x (s.pc.toNat + 2) * 256 + s.byteAfterDigits x (s.pc.toNat + 3))

/-! ## The framebuffer -/

/-- `00E0`: every pixel is unlit; `VF` and everything else but `pc` is kept (R103). -/
def Obligations.ClearUnlightsEveryPixel : Prop :=
  ∀ s : State,
    decodeWord 0x00E0#16 = .cls ∧ ∃ t, exec .cls s = .next t ∧ (∀ px py, t.fb.lit px py = false) ∧ t.pc = s.pc + 2
    ∧ KeepsExcept [.fb, .pc] s t

/-- `Dxyn` in bounds (`n = 0` always is): every pixel flips where the sprite has a 1 and is kept elsewhere, with no wrap at an edge;
`VF` is 1 if a lit pixel became unlit, else 0 (R102, R104 to R106; decisions D13 to D15, logs 17 and 18). -/
def Obligations.DrawXorsTheSpriteAndReportsCollision : Prop :=
  ∀ (s : State) (x y n : Nibble), (n.toNat = 0 ∨ s.i.toNat + n.toNat - 1 ≤ 4095) → ∃ t, exec (.drw x y n) s = .next t
    ∧ (∀ px py, px ≤ 63 → py ≤ 31 → t.fb.lit px py = (s.fb.lit px py ^^ s.spriteSets x y n px py))
    ∧ ((∃ px py, px ≤ 63 ∧ py ≤ 31 ∧ s.fb.lit px py = true ∧ s.spriteSets x y n px py = true) → t.getV flagReg = 1)
    ∧ ((¬ ∃ px py, px ≤ 63 ∧ py ≤ 31 ∧ s.fb.lit px py = true ∧ s.spriteSets x y n px py = true) → t.getV flagReg = 0)
    ∧ t.pc = s.pc + 2 ∧ KeepsRegsExcept [flagReg] s t ∧ KeepsExcept [.regs, .fb, .pc] s t

/-- Drawing the same sprite twice at the same place restores the framebuffer, and the second draw collides exactly when the sprite
has an in-bounds 1 on a pixel that was unlit (R104 corner case h; the first draw's flag must not be a coordinate). -/
def Obligations.DrawingTwiceRestoresTheFramebuffer : Prop :=
  ∀ (s : State) (x y n : Nibble), x ≠ flagReg → y ≠ flagReg → (n.toNat = 0 ∨ s.i.toNat + n.toNat - 1 ≤ 4095) →
    ∃ t u, exec (.drw x y n) s = .next t ∧ exec (.drw x y n) t = .next u ∧ u.fb = s.fb
      ∧ (u.getV flagReg = 1 ↔ ∃ px py, px ≤ 63 ∧ py ≤ 31 ∧ s.fb.lit px py = false ∧ s.spriteSets x y n px py = true)

/-! ## Timers, the key wait, unrecognized opcodes -/

/-- `Fx07`: `V[x]` becomes `DT`, which is kept (R109). -/
def Obligations.DelayTimerIsRead : Prop :=
  ∀ (s : State) (x : Nibble),
    decodeWord (0xF#4 ++ x ++ 0x07#8) = .ldVxDT x ∧ ∃ t, exec (.ldVxDT x) s = .next t ∧ t.getV x = s.dt ∧ t.pc = s.pc + 2
    ∧ KeepsRegsExcept [x] s t ∧ KeepsExcept [.regs, .pc] s t

/-- `Fx15` writes `V[x]` to `DT` and `Fx18` writes it to `ST`; nothing else but `pc` changes (R111, R112). -/
def Obligations.TimersAreWritten : Prop :=
  ∀ (s : State) (x : Nibble),
    decodeWord (0xF#4 ++ x ++ 0x15#8) = .ldDTVx x ∧ decodeWord (0xF#4 ++ x ++ 0x18#8) = .ldSTVx x
    ∧ (∃ t, exec (.ldDTVx x) s = .next t ∧ t.dt = s.getV x ∧ t.pc = s.pc + 2 ∧ KeepsExcept [.dt, .pc] s t)
    ∧ (∃ t, exec (.ldSTVx x) s = .next t ∧ t.st = s.getV x ∧ t.pc = s.pc + 2 ∧ KeepsExcept [.st, .pc] s t)

/-- `Fx0A`: with no key held nothing changes, `pc` included; else `V[x]` becomes the lowest index of a held key (R110, R113; the
level test and the lowest index are decision D16, log 12). -/
def Obligations.KeyWaitHoldsOrStoresTheLowestKey : Prop :=
  ∀ (s : State) (x : Nibble),
    ((∀ k, s.keyHeld k = false) → exec (.ldVxK x) s = .next s)
    ∧ (∀ k : Nibble, s.keyHeld k = true → (∀ j : Nibble, j.toNat < k.toNat → s.keyHeld j = false) →
        ∃ t, exec (.ldVxK x) s = .next t ∧ (t.getV x).toNat = k.toNat ∧ t.pc = s.pc + 2
          ∧ KeepsRegsExcept [x] s t ∧ KeepsExcept [.regs, .pc] s t)

/-- An unrecognized opcode changes `pc` alone (R114). -/
def Obligations.UnrecognizedOpcodeIsANoOp : Prop :=
  ∀ (s : State) (op : Word), unrecognized op = true → ∃ t, exec (.undef op) s = .next t ∧ t.pc = s.pc + 2 ∧ KeepsExcept [.pc] s t
end

