-- ==== Sys2Proof/Laws/Encoding.lean ====
section
/-! SUPPORT. The fields of a word in each format (30_encoding.md R54, R55), and the word of its fields. -/

namespace Sys2Proof

/-! ## Fields of a format -/

@[simp] theorem famOf_formatA (fam : Nibble) (nnn : Addr12) : famOf (formatA fam nnn) = fam := by
  apply BitVec.eq_of_getLsbD_eq; intro k hk
  simp [famOf, formatA, hk]
  interval_cases k <;> simp

@[simp] theorem nnnOf_formatA (fam : Nibble) (nnn : Addr12) : nnnOf (formatA fam nnn) = nnn := by
  apply BitVec.eq_of_getLsbD_eq; intro k hk
  simp [nnnOf, formatA, hk]
  omega

@[simp] theorem famOf_formatK (fam x : Nibble) (kk : Byte) : famOf (formatK fam x kk) = fam := by
  apply BitVec.eq_of_getLsbD_eq; intro k hk
  simp [famOf, formatK, hk]
  interval_cases k <;> simp

@[simp] theorem xOf_formatK (fam x : Nibble) (kk : Byte) : xOf (formatK fam x kk) = x := by
  apply BitVec.eq_of_getLsbD_eq; intro k hk
  simp [xOf, formatK, hk]
  interval_cases k <;> simp

@[simp] theorem kkOf_formatK (fam x : Nibble) (kk : Byte) : kkOf (formatK fam x kk) = kk := by
  apply BitVec.eq_of_getLsbD_eq; intro k hk
  simp [kkOf, formatK, hk]
  interval_cases k <;> simp

@[simp] theorem famOf_formatR (fam x y n : Nibble) : famOf (formatR fam x y n) = fam := by
  apply BitVec.eq_of_getLsbD_eq; intro k hk
  simp [famOf, formatR, hk]
  interval_cases k <;> simp

@[simp] theorem xOf_formatR (fam x y n : Nibble) : xOf (formatR fam x y n) = x := by
  apply BitVec.eq_of_getLsbD_eq; intro k hk
  simp [xOf, formatR, hk]
  interval_cases k <;> simp

@[simp] theorem yOf_formatR (fam x y n : Nibble) : yOf (formatR fam x y n) = y := by
  apply BitVec.eq_of_getLsbD_eq; intro k hk
  simp [yOf, formatR, hk]
  interval_cases k <;> simp

@[simp] theorem nOf_formatR (fam x y n : Nibble) : nOf (formatR fam x y n) = n := by
  apply BitVec.eq_of_getLsbD_eq; intro k hk
  simp [nOf, formatR, hk]
  interval_cases k <;> simp

/-! ## A format is its fields put side by side (`++` of 00_scope.md R10) -/

theorem append_eq_formatA (fam : Nibble) (nnn : Addr12) : (fam ++ nnn : Word) = formatA fam nnn := by
  apply BitVec.eq_of_getLsbD_eq; intro k hk
  simp only [formatA, BitVec.getLsbD_append, BitVec.getLsbD_or, BitVec.getLsbD_shiftLeft, BitVec.getLsbD_setWidth]
  interval_cases k <;> simp

theorem append_eq_formatK (fam x : Nibble) (kk : Byte) : (fam ++ x ++ kk : Word) = formatK fam x kk := by
  apply BitVec.eq_of_getLsbD_eq; intro k hk
  simp only [formatK, BitVec.getLsbD_append, BitVec.getLsbD_or, BitVec.getLsbD_shiftLeft, BitVec.getLsbD_setWidth]
  interval_cases k <;> simp

theorem append_eq_formatR (fam x y n : Nibble) : (fam ++ x ++ y ++ n : Word) = formatR fam x y n := by
  apply BitVec.eq_of_getLsbD_eq; intro k hk
  simp only [formatR, BitVec.getLsbD_append, BitVec.getLsbD_or, BitVec.getLsbD_shiftLeft, BitVec.getLsbD_setWidth]
  interval_cases k <;> simp

/-! ## The word of its fields -/

theorem formatA_fields (w : Word) : formatA (famOf w) (nnnOf w) = w := by
  apply BitVec.eq_of_getLsbD_eq; intro k hk
  simp [famOf, nnnOf, formatA, hk]
  interval_cases k <;> simp

theorem formatK_fields (w : Word) : formatK (famOf w) (xOf w) (kkOf w) = w := by
  apply BitVec.eq_of_getLsbD_eq; intro k hk
  simp [famOf, xOf, kkOf, formatK, hk]
  interval_cases k <;> simp

theorem formatR_fields (w : Word) : formatR (famOf w) (xOf w) (yOf w) (nOf w) = w := by
  apply BitVec.eq_of_getLsbD_eq; intro k hk
  simp [famOf, xOf, yOf, nOf, formatR, hk]
  interval_cases k <;> simp

/-! ## The fixed bits a mask leaves -/

theorem formatA_fixed (fam : Nibble) (nnn : Addr12) : formatA fam nnn &&& 0xF000#16 = formatA fam 0#12 := by
  apply BitVec.eq_of_getLsbD_eq; intro k hk
  simp [formatA]
  interval_cases k <;> simp

theorem formatK_fixed (fam x : Nibble) (kk : Byte) : formatK fam x kk &&& 0xF000#16 = formatK fam 0#4 0#8 := by
  apply BitVec.eq_of_getLsbD_eq; intro k hk
  simp [formatK]
  interval_cases k <;> simp

theorem formatX_fixed (fam x : Nibble) (kk : Byte) : formatK fam x kk &&& 0xF0FF#16 = formatK fam 0#4 kk := by
  apply BitVec.eq_of_getLsbD_eq; intro k hk
  simp [formatK]
  interval_cases k <;> simp

theorem formatR_fixed (fam x y n : Nibble) : formatR fam x y n &&& 0xF00F#16 = formatR fam 0#4 0#4 n := by
  apply BitVec.eq_of_getLsbD_eq; intro k hk
  simp [formatR]
  interval_cases k <;> simp

theorem formatD_fixed (fam x y n : Nibble) : formatR fam x y n &&& 0xF000#16 = formatR fam 0#4 0#4 0#4 := by
  apply BitVec.eq_of_getLsbD_eq; intro k hk
  simp [formatR]
  interval_cases k <;> simp

/-! ## Bytes of a word (20_memory.md R41) -/

/-- A word split into its two bytes and put together again. -/
@[simp] theorem wordOfBytes_bytes (w : Word) : wordOfBytes (w.extractLsb' 8 8) (w.extractLsb' 0 8) = w := by
  apply BitVec.eq_of_getLsbD_eq; intro k hk
  simp [wordOfBytes, hk]
  interval_cases k <;> simp

/-- The byte at the lower address is the high byte (20_memory.md R41). -/
theorem toNat_wordOfBytes (hi lo : Byte) : (wordOfBytes hi lo).toNat = hi.toNat * 256 + lo.toNat := by
  have e : wordOfBytes hi lo = (hi ++ lo : Word) := by
    apply BitVec.eq_of_getLsbD_eq; intro k hk
    simp only [wordOfBytes, BitVec.getLsbD_append, BitVec.getLsbD_or, BitVec.getLsbD_shiftLeft, BitVec.getLsbD_setWidth]
    interval_cases k <;> simp
  rw [e, BitVec.toNat_append, ← Nat.shiftLeft_add_eq_or_of_lt lo.isLt, Nat.shiftLeft_eq]

end Sys2Proof
end

