-- ==== Sys2Proof/Laws/Flags.lean ====
section
/-! SUPPORT. The ALU's results and flags, the immediates and the timers' tick as arithmetic on natural numbers (43_alu.md R94, R95). -/

namespace Sys2Proof.Machine

@[simp] theorem flagByte_toNat (b : Bool) : (flagByte b).toNat = if b then 1 else 0 := by cases b <;> decide

theorem addResult_toNat (a b : Byte) : (addResult a b).toNat = (a.toNat + b.toNat) % 256 := by
  simp [addResult, sum9]

theorem addCarry_eq (a b : Byte) : addCarry a b = decide (255 < a.toNat + b.toNat) := by
  have ha := a.isLt; have hb := b.isLt
  have e : (sum9 a b).toNat = a.toNat + b.toNat := by simp [sum9]; omega
  have h : addCarry a b = (sum9 a b).msb := rfl
  rw [h, BitVec.msb_eq_decide, e]
  simp; omega

theorem subResult_toNat (a b : Byte) : (subResult a b).toNat = (a.toNat + 256 - b.toNat) % 256 := by
  simp [subResult, BitVec.toNat_sub]
  have := a.isLt; have := b.isLt; omega

theorem notBorrow_eq (a b : Byte) : notBorrow a b = decide (b.toNat ≤ a.toNat) := rfl

theorem shrResult_toNat (a : Byte) : (shrResult a).toNat = a.toNat / 2 := by
  simp [shrResult, Nat.shiftRight_eq_div_pow]; omega

theorem flagByte_shrLost (a : Byte) : (flagByte (shrLost a)).toNat = a.toNat % 2 := by
  revert a; decide

theorem shlResult_toNat (a : Byte) : (shlResult a).toNat = 2 * a.toNat % 256 := by
  simp [shlResult, Nat.shiftLeft_eq]; omega

theorem flagByte_shlLost (a : Byte) : (flagByte (shlLost a)).toNat = a.toNat / 128 := by
  revert a; decide

@[simp] theorem length_decimalDigits (b : Byte) : (decimalDigits b).length = 3 := rfl

@[simp] theorem zextAddr_toNat (nnn : Addr12) : (zextAddr nnn).toNat = nnn.toNat := by
  simp [zextAddr]; omega

@[simp] theorem zextByte_toNat (b : Byte) : (zextByte b).toNat = b.toNat := by
  simp [zextByte]; omega

theorem State.keyOf_toNat (s : State) (x : Nibble) : (s.keyOf x).toNat = (s.getV x).toNat % 16 := by
  simp [State.keyOf]

theorem tickByte_toNat (b : Byte) : (tickByte b).toNat = b.toNat - 1 := by
  unfold tickByte; split
  · simp_all
  · bv_omega

/-- The word of two bytes, high byte first (R41). -/
theorem wordOfBytes_toNat (hi lo : Byte) : (wordOfBytes hi lo).toNat = hi.toNat * 256 + lo.toNat := by
  have h1 := hi.isLt; have h2 := lo.isLt
  have e := Nat.shiftLeft_add_eq_or_of_lt (i := 8) (b := lo.toNat) h2 hi.toNat
  rw [Nat.shiftLeft_eq] at e
  simp only [wordOfBytes, BitVec.toNat_or, BitVec.toNat_shiftLeft, BitVec.toNat_setWidth, Nat.shiftLeft_eq]
  rw [Nat.mod_eq_of_lt (a := lo.toNat) (by omega), Nat.mod_eq_of_lt (a := hi.toNat) (by omega),
    Nat.mod_eq_of_lt (by omega), ← e]

end Sys2Proof.Machine
end

