-- ==== Sys2Proof/Laws/State.lean ====
section
/-! SUPPORT. One lemma per field per update of `State`, so that no proof unfolds a record update. -/

namespace Sys2Proof.Machine

/-! ## `setV` -/

@[simp] theorem State.setV_v (s : State) (x : Nibble) (b : Byte) : (s.setV x b).v = s.v.set x.toNat b := rfl
@[simp] theorem State.setV_pc (s : State) (x : Nibble) (b : Byte) : (s.setV x b).pc = s.pc := rfl
@[simp] theorem State.setV_i (s : State) (x : Nibble) (b : Byte) : (s.setV x b).i = s.i := rfl
@[simp] theorem State.setV_stack (s : State) (x : Nibble) (b : Byte) : (s.setV x b).stack = s.stack := rfl
@[simp] theorem State.setV_sp (s : State) (x : Nibble) (b : Byte) : (s.setV x b).sp = s.sp := rfl
@[simp] theorem State.setV_dt (s : State) (x : Nibble) (b : Byte) : (s.setV x b).dt = s.dt := rfl
@[simp] theorem State.setV_st (s : State) (x : Nibble) (b : Byte) : (s.setV x b).st = s.st := rfl
@[simp] theorem State.setV_keys (s : State) (x : Nibble) (b : Byte) : (s.setV x b).keys = s.keys := rfl
@[simp] theorem State.setV_fb (s : State) (x : Nibble) (b : Byte) : (s.setV x b).fb = s.fb := rfl
@[simp] theorem State.setV_mem (s : State) (x : Nibble) (b : Byte) : (s.setV x b).mem = s.mem := rfl
@[simp] theorem State.setV_fault (s : State) (x : Nibble) (b : Byte) : (s.setV x b).fault = s.fault := rfl
@[simp] theorem State.setV_font (s : State) (x : Nibble) (b : Byte) : (s.setV x b).font = s.font := rfl
@[simp] theorem State.byteAt_setV (s : State) (x : Nibble) (b : Byte) (addr : Nat) : (s.setV x b).byteAt addr = s.byteAt addr := rfl
@[simp] theorem State.setV_draws (s : State) (x : Nibble) (b : Byte) : (s.setV x b).draws = s.draws := rfl

/-! ## `setPc` -/

@[simp] theorem State.setPc_v (s : State) (a : Word) : (s.setPc a).v = s.v := rfl
@[simp] theorem State.setPc_pc (s : State) (a : Word) : (s.setPc a).pc = a := rfl
@[simp] theorem State.setPc_i (s : State) (a : Word) : (s.setPc a).i = s.i := rfl
@[simp] theorem State.setPc_stack (s : State) (a : Word) : (s.setPc a).stack = s.stack := rfl
@[simp] theorem State.setPc_sp (s : State) (a : Word) : (s.setPc a).sp = s.sp := rfl
@[simp] theorem State.setPc_dt (s : State) (a : Word) : (s.setPc a).dt = s.dt := rfl
@[simp] theorem State.setPc_st (s : State) (a : Word) : (s.setPc a).st = s.st := rfl
@[simp] theorem State.setPc_keys (s : State) (a : Word) : (s.setPc a).keys = s.keys := rfl
@[simp] theorem State.setPc_fb (s : State) (a : Word) : (s.setPc a).fb = s.fb := rfl
@[simp] theorem State.setPc_mem (s : State) (a : Word) : (s.setPc a).mem = s.mem := rfl
@[simp] theorem State.setPc_fault (s : State) (a : Word) : (s.setPc a).fault = s.fault := rfl
@[simp] theorem State.setPc_font (s : State) (a : Word) : (s.setPc a).font = s.font := rfl
@[simp] theorem State.byteAt_setPc (s : State) (a : Word) (addr : Nat) : (s.setPc a).byteAt addr = s.byteAt addr := rfl
@[simp] theorem State.setPc_draws (s : State) (a : Word) : (s.setPc a).draws = s.draws := rfl
@[simp] theorem State.getV_setPc (s : State) (a : Word) (r : Nibble) : (s.setPc a).getV r = s.getV r := rfl

/-! ## `setI` -/

@[simp] theorem State.setI_v (s : State) (a : Word) : (s.setI a).v = s.v := rfl
@[simp] theorem State.setI_pc (s : State) (a : Word) : (s.setI a).pc = s.pc := rfl
@[simp] theorem State.setI_i (s : State) (a : Word) : (s.setI a).i = a := rfl
@[simp] theorem State.setI_stack (s : State) (a : Word) : (s.setI a).stack = s.stack := rfl
@[simp] theorem State.setI_sp (s : State) (a : Word) : (s.setI a).sp = s.sp := rfl
@[simp] theorem State.setI_dt (s : State) (a : Word) : (s.setI a).dt = s.dt := rfl
@[simp] theorem State.setI_st (s : State) (a : Word) : (s.setI a).st = s.st := rfl
@[simp] theorem State.setI_keys (s : State) (a : Word) : (s.setI a).keys = s.keys := rfl
@[simp] theorem State.setI_fb (s : State) (a : Word) : (s.setI a).fb = s.fb := rfl
@[simp] theorem State.setI_mem (s : State) (a : Word) : (s.setI a).mem = s.mem := rfl
@[simp] theorem State.setI_fault (s : State) (a : Word) : (s.setI a).fault = s.fault := rfl
@[simp] theorem State.setI_font (s : State) (a : Word) : (s.setI a).font = s.font := rfl
@[simp] theorem State.byteAt_setI (s : State) (a : Word) (addr : Nat) : (s.setI a).byteAt addr = s.byteAt addr := rfl
@[simp] theorem State.setI_draws (s : State) (a : Word) : (s.setI a).draws = s.draws := rfl
@[simp] theorem State.getV_setI (s : State) (a : Word) (r : Nibble) : (s.setI a).getV r = s.getV r := rfl

/-! ## `setDT` -/

@[simp] theorem State.setDT_v (s : State) (b : Byte) : (s.setDT b).v = s.v := rfl
@[simp] theorem State.setDT_pc (s : State) (b : Byte) : (s.setDT b).pc = s.pc := rfl
@[simp] theorem State.setDT_i (s : State) (b : Byte) : (s.setDT b).i = s.i := rfl
@[simp] theorem State.setDT_stack (s : State) (b : Byte) : (s.setDT b).stack = s.stack := rfl
@[simp] theorem State.setDT_sp (s : State) (b : Byte) : (s.setDT b).sp = s.sp := rfl
@[simp] theorem State.setDT_dt (s : State) (b : Byte) : (s.setDT b).dt = b := rfl
@[simp] theorem State.setDT_st (s : State) (b : Byte) : (s.setDT b).st = s.st := rfl
@[simp] theorem State.setDT_keys (s : State) (b : Byte) : (s.setDT b).keys = s.keys := rfl
@[simp] theorem State.setDT_fb (s : State) (b : Byte) : (s.setDT b).fb = s.fb := rfl
@[simp] theorem State.setDT_mem (s : State) (b : Byte) : (s.setDT b).mem = s.mem := rfl
@[simp] theorem State.setDT_fault (s : State) (b : Byte) : (s.setDT b).fault = s.fault := rfl
@[simp] theorem State.setDT_font (s : State) (b : Byte) : (s.setDT b).font = s.font := rfl
@[simp] theorem State.byteAt_setDT (s : State) (b : Byte) (addr : Nat) : (s.setDT b).byteAt addr = s.byteAt addr := rfl
@[simp] theorem State.setDT_draws (s : State) (b : Byte) : (s.setDT b).draws = s.draws := rfl
@[simp] theorem State.getV_setDT (s : State) (b : Byte) (r : Nibble) : (s.setDT b).getV r = s.getV r := rfl

/-! ## `setST` -/

@[simp] theorem State.setST_v (s : State) (b : Byte) : (s.setST b).v = s.v := rfl
@[simp] theorem State.setST_pc (s : State) (b : Byte) : (s.setST b).pc = s.pc := rfl
@[simp] theorem State.setST_i (s : State) (b : Byte) : (s.setST b).i = s.i := rfl
@[simp] theorem State.setST_stack (s : State) (b : Byte) : (s.setST b).stack = s.stack := rfl
@[simp] theorem State.setST_sp (s : State) (b : Byte) : (s.setST b).sp = s.sp := rfl
@[simp] theorem State.setST_dt (s : State) (b : Byte) : (s.setST b).dt = s.dt := rfl
@[simp] theorem State.setST_st (s : State) (b : Byte) : (s.setST b).st = b := rfl
@[simp] theorem State.setST_keys (s : State) (b : Byte) : (s.setST b).keys = s.keys := rfl
@[simp] theorem State.setST_fb (s : State) (b : Byte) : (s.setST b).fb = s.fb := rfl
@[simp] theorem State.setST_mem (s : State) (b : Byte) : (s.setST b).mem = s.mem := rfl
@[simp] theorem State.setST_fault (s : State) (b : Byte) : (s.setST b).fault = s.fault := rfl
@[simp] theorem State.setST_font (s : State) (b : Byte) : (s.setST b).font = s.font := rfl
@[simp] theorem State.byteAt_setST (s : State) (b : Byte) (addr : Nat) : (s.setST b).byteAt addr = s.byteAt addr := rfl
@[simp] theorem State.setST_draws (s : State) (b : Byte) : (s.setST b).draws = s.draws := rfl
@[simp] theorem State.getV_setST (s : State) (b : Byte) (r : Nibble) : (s.setST b).getV r = s.getV r := rfl

/-! ## `setFb` -/

@[simp] theorem State.setFb_v (s : State) (f : Framebuffer) : (s.setFb f).v = s.v := rfl
@[simp] theorem State.setFb_pc (s : State) (f : Framebuffer) : (s.setFb f).pc = s.pc := rfl
@[simp] theorem State.setFb_i (s : State) (f : Framebuffer) : (s.setFb f).i = s.i := rfl
@[simp] theorem State.setFb_stack (s : State) (f : Framebuffer) : (s.setFb f).stack = s.stack := rfl
@[simp] theorem State.setFb_sp (s : State) (f : Framebuffer) : (s.setFb f).sp = s.sp := rfl
@[simp] theorem State.setFb_dt (s : State) (f : Framebuffer) : (s.setFb f).dt = s.dt := rfl
@[simp] theorem State.setFb_st (s : State) (f : Framebuffer) : (s.setFb f).st = s.st := rfl
@[simp] theorem State.setFb_keys (s : State) (f : Framebuffer) : (s.setFb f).keys = s.keys := rfl
@[simp] theorem State.setFb_fb (s : State) (f : Framebuffer) : (s.setFb f).fb = f := rfl
@[simp] theorem State.setFb_mem (s : State) (f : Framebuffer) : (s.setFb f).mem = s.mem := rfl
@[simp] theorem State.setFb_fault (s : State) (f : Framebuffer) : (s.setFb f).fault = s.fault := rfl
@[simp] theorem State.setFb_font (s : State) (f : Framebuffer) : (s.setFb f).font = s.font := rfl
@[simp] theorem State.byteAt_setFb (s : State) (f : Framebuffer) (addr : Nat) : (s.setFb f).byteAt addr = s.byteAt addr := rfl
@[simp] theorem State.setFb_draws (s : State) (f : Framebuffer) : (s.setFb f).draws = s.draws := rfl
@[simp] theorem State.getV_setFb (s : State) (f : Framebuffer) (r : Nibble) : (s.setFb f).getV r = s.getV r := rfl

/-! ## `setMem` -/

@[simp] theorem State.setMem_v (s : State) (m : Memory) : (s.setMem m).v = s.v := rfl
@[simp] theorem State.setMem_pc (s : State) (m : Memory) : (s.setMem m).pc = s.pc := rfl
@[simp] theorem State.setMem_i (s : State) (m : Memory) : (s.setMem m).i = s.i := rfl
@[simp] theorem State.setMem_stack (s : State) (m : Memory) : (s.setMem m).stack = s.stack := rfl
@[simp] theorem State.setMem_sp (s : State) (m : Memory) : (s.setMem m).sp = s.sp := rfl
@[simp] theorem State.setMem_dt (s : State) (m : Memory) : (s.setMem m).dt = s.dt := rfl
@[simp] theorem State.setMem_st (s : State) (m : Memory) : (s.setMem m).st = s.st := rfl
@[simp] theorem State.setMem_keys (s : State) (m : Memory) : (s.setMem m).keys = s.keys := rfl
@[simp] theorem State.setMem_fb (s : State) (m : Memory) : (s.setMem m).fb = s.fb := rfl
@[simp] theorem State.setMem_mem (s : State) (m : Memory) : (s.setMem m).mem = m := rfl
@[simp] theorem State.setMem_fault (s : State) (m : Memory) : (s.setMem m).fault = s.fault := rfl
@[simp] theorem State.setMem_font (s : State) (m : Memory) : (s.setMem m).font = s.font := rfl
@[simp] theorem State.setMem_draws (s : State) (m : Memory) : (s.setMem m).draws = s.draws := rfl
@[simp] theorem State.getV_setMem (s : State) (m : Memory) (r : Nibble) : (s.setMem m).getV r = s.getV r := rfl

/-! ## `setRegs` -/

@[simp] theorem State.setRegs_v (s : State) (w : Vector Byte 16) : (s.setRegs w).v = w := rfl
@[simp] theorem State.setRegs_pc (s : State) (w : Vector Byte 16) : (s.setRegs w).pc = s.pc := rfl
@[simp] theorem State.setRegs_i (s : State) (w : Vector Byte 16) : (s.setRegs w).i = s.i := rfl
@[simp] theorem State.setRegs_stack (s : State) (w : Vector Byte 16) : (s.setRegs w).stack = s.stack := rfl
@[simp] theorem State.setRegs_sp (s : State) (w : Vector Byte 16) : (s.setRegs w).sp = s.sp := rfl
@[simp] theorem State.setRegs_dt (s : State) (w : Vector Byte 16) : (s.setRegs w).dt = s.dt := rfl
@[simp] theorem State.setRegs_st (s : State) (w : Vector Byte 16) : (s.setRegs w).st = s.st := rfl
@[simp] theorem State.setRegs_keys (s : State) (w : Vector Byte 16) : (s.setRegs w).keys = s.keys := rfl
@[simp] theorem State.setRegs_fb (s : State) (w : Vector Byte 16) : (s.setRegs w).fb = s.fb := rfl
@[simp] theorem State.setRegs_mem (s : State) (w : Vector Byte 16) : (s.setRegs w).mem = s.mem := rfl
@[simp] theorem State.setRegs_fault (s : State) (w : Vector Byte 16) : (s.setRegs w).fault = s.fault := rfl
@[simp] theorem State.setRegs_font (s : State) (w : Vector Byte 16) : (s.setRegs w).font = s.font := rfl
@[simp] theorem State.byteAt_setRegs (s : State) (w : Vector Byte 16) (addr : Nat) : (s.setRegs w).byteAt addr = s.byteAt addr := rfl
@[simp] theorem State.setRegs_draws (s : State) (w : Vector Byte 16) : (s.setRegs w).draws = s.draws := rfl

/-! ## `setStack` -/

@[simp] theorem State.setStack_v (s : State) (p : Fin 16) (w : Vector Word 16) : (s.setStack p w).v = s.v := rfl
@[simp] theorem State.setStack_pc (s : State) (p : Fin 16) (w : Vector Word 16) : (s.setStack p w).pc = s.pc := rfl
@[simp] theorem State.setStack_i (s : State) (p : Fin 16) (w : Vector Word 16) : (s.setStack p w).i = s.i := rfl
@[simp] theorem State.setStack_stack (s : State) (p : Fin 16) (w : Vector Word 16) : (s.setStack p w).stack = w := rfl
@[simp] theorem State.setStack_sp (s : State) (p : Fin 16) (w : Vector Word 16) : (s.setStack p w).sp = p := rfl
@[simp] theorem State.setStack_dt (s : State) (p : Fin 16) (w : Vector Word 16) : (s.setStack p w).dt = s.dt := rfl
@[simp] theorem State.setStack_st (s : State) (p : Fin 16) (w : Vector Word 16) : (s.setStack p w).st = s.st := rfl
@[simp] theorem State.setStack_keys (s : State) (p : Fin 16) (w : Vector Word 16) : (s.setStack p w).keys = s.keys := rfl
@[simp] theorem State.setStack_fb (s : State) (p : Fin 16) (w : Vector Word 16) : (s.setStack p w).fb = s.fb := rfl
@[simp] theorem State.setStack_mem (s : State) (p : Fin 16) (w : Vector Word 16) : (s.setStack p w).mem = s.mem := rfl
@[simp] theorem State.setStack_fault (s : State) (p : Fin 16) (w : Vector Word 16) : (s.setStack p w).fault = s.fault := rfl
@[simp] theorem State.setStack_font (s : State) (p : Fin 16) (w : Vector Word 16) : (s.setStack p w).font = s.font := rfl
@[simp] theorem State.byteAt_setStack (s : State) (p : Fin 16) (w : Vector Word 16) (addr : Nat) : (s.setStack p w).byteAt addr = s.byteAt addr := rfl
@[simp] theorem State.setStack_draws (s : State) (p : Fin 16) (w : Vector Word 16) : (s.setStack p w).draws = s.draws := rfl
@[simp] theorem State.getV_setStack (s : State) (p : Fin 16) (w : Vector Word 16) (r : Nibble) : (s.setStack p w).getV r = s.getV r := rfl

/-! ## `bumpDraws` -/

@[simp] theorem State.bumpDraws_v (s : State) : (s.bumpDraws).v = s.v := rfl
@[simp] theorem State.bumpDraws_pc (s : State) : (s.bumpDraws).pc = s.pc := rfl
@[simp] theorem State.bumpDraws_i (s : State) : (s.bumpDraws).i = s.i := rfl
@[simp] theorem State.bumpDraws_stack (s : State) : (s.bumpDraws).stack = s.stack := rfl
@[simp] theorem State.bumpDraws_sp (s : State) : (s.bumpDraws).sp = s.sp := rfl
@[simp] theorem State.bumpDraws_dt (s : State) : (s.bumpDraws).dt = s.dt := rfl
@[simp] theorem State.bumpDraws_st (s : State) : (s.bumpDraws).st = s.st := rfl
@[simp] theorem State.bumpDraws_keys (s : State) : (s.bumpDraws).keys = s.keys := rfl
@[simp] theorem State.bumpDraws_fb (s : State) : (s.bumpDraws).fb = s.fb := rfl
@[simp] theorem State.bumpDraws_mem (s : State) : (s.bumpDraws).mem = s.mem := rfl
@[simp] theorem State.bumpDraws_fault (s : State) : (s.bumpDraws).fault = s.fault := rfl
@[simp] theorem State.bumpDraws_font (s : State) : (s.bumpDraws).font = s.font := rfl
@[simp] theorem State.byteAt_bumpDraws (s : State) (addr : Nat) : (s.bumpDraws).byteAt addr = s.byteAt addr := rfl
@[simp] theorem State.bumpDraws_draws (s : State) : (s.bumpDraws).draws = s.draws + 1 := rfl
@[simp] theorem State.getV_bumpDraws (s : State) (r : Nibble) : (s.bumpDraws).getV r = s.getV r := rfl

/-! ## `withDraws` -/

@[simp] theorem State.withDraws_v (s : State) (d : Nat) : (s.withDraws d).v = s.v := rfl
@[simp] theorem State.withDraws_pc (s : State) (d : Nat) : (s.withDraws d).pc = s.pc := rfl
@[simp] theorem State.withDraws_i (s : State) (d : Nat) : (s.withDraws d).i = s.i := rfl
@[simp] theorem State.withDraws_stack (s : State) (d : Nat) : (s.withDraws d).stack = s.stack := rfl
@[simp] theorem State.withDraws_sp (s : State) (d : Nat) : (s.withDraws d).sp = s.sp := rfl
@[simp] theorem State.withDraws_dt (s : State) (d : Nat) : (s.withDraws d).dt = s.dt := rfl
@[simp] theorem State.withDraws_st (s : State) (d : Nat) : (s.withDraws d).st = s.st := rfl
@[simp] theorem State.withDraws_keys (s : State) (d : Nat) : (s.withDraws d).keys = s.keys := rfl
@[simp] theorem State.withDraws_fb (s : State) (d : Nat) : (s.withDraws d).fb = s.fb := rfl
@[simp] theorem State.withDraws_mem (s : State) (d : Nat) : (s.withDraws d).mem = s.mem := rfl
@[simp] theorem State.withDraws_fault (s : State) (d : Nat) : (s.withDraws d).fault = s.fault := rfl
@[simp] theorem State.withDraws_font (s : State) (d : Nat) : (s.withDraws d).font = s.font := rfl
@[simp] theorem State.byteAt_withDraws (s : State) (d : Nat) (addr : Nat) : (s.withDraws d).byteAt addr = s.byteAt addr := rfl
@[simp] theorem State.withDraws_draws (s : State) (d : Nat) : (s.withDraws d).draws = d := rfl
@[simp] theorem State.getV_withDraws (s : State) (d : Nat) (r : Nibble) : (s.withDraws d).getV r = s.getV r := rfl

/-! ## `raise` -/

@[simp] theorem State.raise_v (s : State) (c : Fatal) : (s.raise c).v = s.v := rfl
@[simp] theorem State.raise_pc (s : State) (c : Fatal) : (s.raise c).pc = s.pc := rfl
@[simp] theorem State.raise_i (s : State) (c : Fatal) : (s.raise c).i = s.i := rfl
@[simp] theorem State.raise_stack (s : State) (c : Fatal) : (s.raise c).stack = s.stack := rfl
@[simp] theorem State.raise_sp (s : State) (c : Fatal) : (s.raise c).sp = s.sp := rfl
@[simp] theorem State.raise_dt (s : State) (c : Fatal) : (s.raise c).dt = s.dt := rfl
@[simp] theorem State.raise_st (s : State) (c : Fatal) : (s.raise c).st = s.st := rfl
@[simp] theorem State.raise_keys (s : State) (c : Fatal) : (s.raise c).keys = s.keys := rfl
@[simp] theorem State.raise_fb (s : State) (c : Fatal) : (s.raise c).fb = s.fb := rfl
@[simp] theorem State.raise_mem (s : State) (c : Fatal) : (s.raise c).mem = s.mem := rfl
@[simp] theorem State.raise_fault (s : State) (c : Fatal) : (s.raise c).fault = some c := rfl
@[simp] theorem State.raise_font (s : State) (c : Fatal) : (s.raise c).font = s.font := rfl
@[simp] theorem State.byteAt_raise (s : State) (c : Fatal) (addr : Nat) : (s.raise c).byteAt addr = s.byteAt addr := rfl
@[simp] theorem State.raise_draws (s : State) (c : Fatal) : (s.raise c).draws = s.draws := rfl
@[simp] theorem State.getV_raise (s : State) (c : Fatal) (r : Nibble) : (s.raise c).getV r = s.getV r := rfl

/-! ## `advance` -/

@[simp] theorem State.advance_v (s : State) : (s.advance).v = s.v := rfl
@[simp] theorem State.advance_pc (s : State) : (s.advance).pc = s.pc + 2#16 := rfl
@[simp] theorem State.advance_i (s : State) : (s.advance).i = s.i := rfl
@[simp] theorem State.advance_stack (s : State) : (s.advance).stack = s.stack := rfl
@[simp] theorem State.advance_sp (s : State) : (s.advance).sp = s.sp := rfl
@[simp] theorem State.advance_dt (s : State) : (s.advance).dt = s.dt := rfl
@[simp] theorem State.advance_st (s : State) : (s.advance).st = s.st := rfl
@[simp] theorem State.advance_keys (s : State) : (s.advance).keys = s.keys := rfl
@[simp] theorem State.advance_fb (s : State) : (s.advance).fb = s.fb := rfl
@[simp] theorem State.advance_mem (s : State) : (s.advance).mem = s.mem := rfl
@[simp] theorem State.advance_fault (s : State) : (s.advance).fault = s.fault := rfl
@[simp] theorem State.advance_font (s : State) : (s.advance).font = s.font := rfl
@[simp] theorem State.byteAt_advance (s : State) (addr : Nat) : (s.advance).byteAt addr = s.byteAt addr := rfl
@[simp] theorem State.advance_draws (s : State) : (s.advance).draws = s.draws := rfl
@[simp] theorem State.getV_advance (s : State) (r : Nibble) : (s.advance).getV r = s.getV r := rfl

/-! ## `skipIf` -/

@[simp] theorem State.skipIf_v (s : State) (c : Bool) : (s.skipIf c).v = s.v := rfl
@[simp] theorem State.skipIf_pc (s : State) (c : Bool) : (s.skipIf c).pc = s.pc + if c then 4#16 else 2#16 := rfl
@[simp] theorem State.skipIf_i (s : State) (c : Bool) : (s.skipIf c).i = s.i := rfl
@[simp] theorem State.skipIf_stack (s : State) (c : Bool) : (s.skipIf c).stack = s.stack := rfl
@[simp] theorem State.skipIf_sp (s : State) (c : Bool) : (s.skipIf c).sp = s.sp := rfl
@[simp] theorem State.skipIf_dt (s : State) (c : Bool) : (s.skipIf c).dt = s.dt := rfl
@[simp] theorem State.skipIf_st (s : State) (c : Bool) : (s.skipIf c).st = s.st := rfl
@[simp] theorem State.skipIf_keys (s : State) (c : Bool) : (s.skipIf c).keys = s.keys := rfl
@[simp] theorem State.skipIf_fb (s : State) (c : Bool) : (s.skipIf c).fb = s.fb := rfl
@[simp] theorem State.skipIf_mem (s : State) (c : Bool) : (s.skipIf c).mem = s.mem := rfl
@[simp] theorem State.skipIf_fault (s : State) (c : Bool) : (s.skipIf c).fault = s.fault := rfl
@[simp] theorem State.skipIf_font (s : State) (c : Bool) : (s.skipIf c).font = s.font := rfl
@[simp] theorem State.byteAt_skipIf (s : State) (c : Bool) (addr : Nat) : (s.skipIf c).byteAt addr = s.byteAt addr := rfl
@[simp] theorem State.skipIf_draws (s : State) (c : Bool) : (s.skipIf c).draws = s.draws := rfl
@[simp] theorem State.getV_skipIf (s : State) (c : Bool) (r : Nibble) : (s.skipIf c).getV r = s.getV r := rfl

/-! ## `setKey` -/

@[simp] theorem State.setKey_v (s : State) (k : Nibble) (b : Bool) : (s.setKey k b).v = s.v := rfl
@[simp] theorem State.setKey_pc (s : State) (k : Nibble) (b : Bool) : (s.setKey k b).pc = s.pc := rfl
@[simp] theorem State.setKey_i (s : State) (k : Nibble) (b : Bool) : (s.setKey k b).i = s.i := rfl
@[simp] theorem State.setKey_stack (s : State) (k : Nibble) (b : Bool) : (s.setKey k b).stack = s.stack := rfl
@[simp] theorem State.setKey_sp (s : State) (k : Nibble) (b : Bool) : (s.setKey k b).sp = s.sp := rfl
@[simp] theorem State.setKey_dt (s : State) (k : Nibble) (b : Bool) : (s.setKey k b).dt = s.dt := rfl
@[simp] theorem State.setKey_st (s : State) (k : Nibble) (b : Bool) : (s.setKey k b).st = s.st := rfl
@[simp] theorem State.setKey_keys (s : State) (k : Nibble) (b : Bool) : (s.setKey k b).keys = s.keys.set k.toNat b := rfl
@[simp] theorem State.setKey_fb (s : State) (k : Nibble) (b : Bool) : (s.setKey k b).fb = s.fb := rfl
@[simp] theorem State.setKey_mem (s : State) (k : Nibble) (b : Bool) : (s.setKey k b).mem = s.mem := rfl
@[simp] theorem State.setKey_fault (s : State) (k : Nibble) (b : Bool) : (s.setKey k b).fault = s.fault := rfl
@[simp] theorem State.setKey_font (s : State) (k : Nibble) (b : Bool) : (s.setKey k b).font = s.font := rfl
@[simp] theorem State.byteAt_setKey (s : State) (k : Nibble) (b : Bool) (addr : Nat) : (s.setKey k b).byteAt addr = s.byteAt addr := rfl
@[simp] theorem State.setKey_draws (s : State) (k : Nibble) (b : Bool) : (s.setKey k b).draws = s.draws := rfl
@[simp] theorem State.getV_setKey (s : State) (k : Nibble) (b : Bool) (r : Nibble) : (s.setKey k b).getV r = s.getV r := rfl

end Sys2Proof.Machine
end

