-- ==== Sys2Proof/Laws/Framebuffer.lean ====
section
/-! SUPPORT. The pixel engine: what one toggle, a list of toggles and a whole sprite do to every pixel (R102, R104). -/

namespace Sys2Proof.Machine

theorem Framebuffer.lit_of_out (f : Framebuffer) {px py : Nat} (h : ¬(px < 64 ∧ py < 32)) : f.lit px py = false := by
  simp [Framebuffer.lit, h]

theorem Framebuffer.lit_of_in (f : Framebuffer) {px py : Nat} (h : px < 64 ∧ py < 32) :
    f.lit px py = (f[py]'h.2)[px]'h.1 := by
  simp [Framebuffer.lit, h]

/-- Two framebuffers with the same pixels are the same data. -/
theorem Framebuffer.ext_lit {f g : Framebuffer} (h : ∀ px py, px < 64 → py < 32 → f.lit px py = g.lit px py) : f = g := by
  apply Vector.ext; intro py hy
  apply Vector.ext; intro px hx
  have := h px py hx hy
  rwa [Framebuffer.lit_of_in f ⟨hx, hy⟩, Framebuffer.lit_of_in g ⟨hx, hy⟩] at this

@[simp] theorem lit_blankFb (px py : Nat) : blankFb.lit px py = false := by
  by_cases h : px < 64 ∧ py < 32
  · rw [Framebuffer.lit_of_in _ h]; simp [blankFb]
  · exact Framebuffer.lit_of_out _ h

/-- A toggle collides exactly when the pixel was lit; a clipped pixel never does (R102). -/
@[simp] theorem Framebuffer.toggle_collided (f : Framebuffer) (px py : Nat) : (f.toggle px py).collided = f.lit px py := by
  by_cases h : px < 64 ∧ py < 32
  · simp [Framebuffer.toggle, Framebuffer.lit, h]
  · simp [Framebuffer.toggle, Framebuffer.lit, h]

/-- Everything one toggle does: the addressed pixel flips if it is in bounds, every other pixel is kept (R102). -/
theorem Framebuffer.lit_toggle (f : Framebuffer) (px py a b : Nat) :
    (f.toggle px py).fb.lit a b = if (a, b) = (px, py) ∧ a < 64 ∧ b < 32 then !f.lit a b else f.lit a b := by
  by_cases hab : a < 64 ∧ b < 32
  · by_cases h : px < 64 ∧ py < 32
    · rw [Framebuffer.lit_of_in _ hab, Framebuffer.lit_of_in _ hab]
      simp only [Framebuffer.toggle, h, and_self, dite_true, Vector.getElem_set, Prod.mk.injEq]
      by_cases hb : py = b
      · subst hb
        by_cases ha : px = a
        · subst ha; simp [h]
        · simp [ha, hab, show ¬ a = px from fun e => ha e.symm]
      · simp [hb, show ¬ b = py from fun e => hb e.symm]
    · have hne : ¬ (a, b) = (px, py) := by
        rintro ⟨⟩; exact h hab
      simp [Framebuffer.toggle, h, hne]
  · rw [Framebuffer.lit_of_out _ hab, Framebuffer.lit_of_out _ hab, if_neg (fun e => hab e.2)]

/-- Everything a list of toggles of distinct pixels does (R104 corner case g). -/
theorem togglePixels_spec (ps : List (Nat × Nat)) (hp : ps.Nodup) (f : Framebuffer) (c : Bool) :
    (∀ a b, (togglePixels ps f c).1.lit a b = if (a, b) ∈ ps ∧ a < 64 ∧ b < 32 then !f.lit a b else f.lit a b)
      ∧ (togglePixels ps f c).2 = (c || ps.any fun p => f.lit p.1 p.2) := by
  induction ps generalizing f c with
  | nil => simp [togglePixels]
  | cons p ps ih =>
    rw [List.nodup_cons] at hp
    obtain ⟨h1, h2⟩ := ih hp.2 (f.toggle p.1 p.2).fb (c || (f.toggle p.1 p.2).collided)
    refine ⟨fun a b => ?_, ?_⟩
    · rw [togglePixels, h1, Framebuffer.lit_toggle]
      by_cases e : (a, b) = p
      · subst e; simp [hp.1]
      · simp [e]
    · rw [togglePixels, h2, Framebuffer.toggle_collided, List.any_cons, Bool.or_assoc]
      congr 2
      rw [Bool.eq_iff_iff]
      simp only [List.any_eq_true]
      have key : ∀ q ∈ ps, (f.toggle p.1 p.2).fb.lit q.1 q.2 = f.lit q.1 q.2 := by
        intro q hq
        rw [Framebuffer.lit_toggle, if_neg]
        rintro ⟨e, -⟩
        have : q = p := by rw [← Prod.eta q, ← Prod.eta p]; exact e
        exact hp.1 (this ▸ hq)
      constructor
      · rintro ⟨q, hq, hl⟩; exact ⟨q, hq, by rwa [key q hq] at hl⟩
      · rintro ⟨q, hq, hl⟩; exact ⟨q, hq, by rwa [key q hq]⟩

theorem mem_spriteColumns (b : Byte) (col : Nat) : col ∈ spriteColumns b ↔ col < 8 ∧ b.getLsbD (7 - col) = true := by
  simp [spriteColumns]

/-- Which pixels a sprite toggles (R104). -/
theorem mem_spritePixels (rows : List Byte) (X Y a b : Nat) :
    (a, b) ∈ spritePixels rows X Y ↔
      X ≤ a ∧ a < X + 8 ∧ Y ≤ b ∧ ∃ h : b - Y < rows.length, (rows[b - Y]).getLsbD (7 - (a - X)) = true := by
  induction rows generalizing Y with
  | nil => simp [spritePixels]
  | cons r rows ih =>
    rw [spritePixels, List.mem_append, ih, List.mem_map]
    constructor
    · rintro (⟨col, hc, e⟩ | ⟨h1, h2, h3, h4, h5⟩)
      · obtain ⟨rfl, rfl⟩ := Prod.mk.inj e
        rw [mem_spriteColumns] at hc
        exact ⟨by omega, by omega, Nat.le_refl _, by simp, by simpa using hc.2⟩
      · have e : b - Y = (b - (Y + 1)) + 1 := by omega
        refine ⟨h1, h2, by omega, by simp; omega, ?_⟩
        simpa [e] using h5
    · rintro ⟨h1, h2, h3, h4, h5⟩
      by_cases e : b = Y
      · subst e
        refine .inl ⟨a - X, (mem_spriteColumns _ _).2 ⟨by omega, by simpa using h5⟩, ?_⟩
        simp; omega
      · have e2 : b - Y = (b - (Y + 1)) + 1 := by omega
        simp only [List.length_cons] at h4
        refine .inr ⟨h1, h2, by omega, by omega, ?_⟩
        simpa [e2] using h5

/-- No pixel is toggled twice by one sprite (R104 corner case g). -/
theorem nodup_spritePixels (rows : List Byte) (X Y : Nat) : (spritePixels rows X Y).Nodup := by
  induction rows generalizing Y with
  | nil => simp [spritePixels]
  | cons r rows ih =>
    rw [spritePixels, List.nodup_append]
    refine ⟨?_, ih (Y + 1), ?_⟩
    · refine List.Nodup.map (fun c d h => ?_) (List.Nodup.filter _ List.nodup_range)
      have := (Prod.mk.inj h).1
      omega
    · rintro ⟨a, b⟩ hp ⟨a', b'⟩ hq e
      obtain ⟨col, -, e1⟩ := List.mem_map.1 hp
      have h2 := (mem_spritePixels rows X (Y + 1) a' b').1 hq
      simp only [Prod.mk.injEq] at e1 e
      omega

end Sys2Proof.Machine
end

