-- ==== Sys2Proof/Laws/Memory.lean ====
section
/-! SUPPORT. Reads after writes of memory, and that every memory operation keeps the canonical form. -/

namespace Sys2Proof.Machine

variable {f : Font}

@[simp] theorem Memory.read_nil (a : Nat) : Memory.read f [] a = Memory.unlisted f a := rfl

theorem Memory.read_cons (c : Host.Cell) (m : Memory) (a : Nat) :
    Memory.read f (c :: m) a = if c.1 = a then c.2 else Memory.read f m a := rfl

theorem Memory.unlisted_above (a : Nat) (h : 80 ≤ a) : Memory.unlisted f a = 0#8 := by
  rw [Memory.unlisted, dif_neg (by simpa using h)]

theorem Memory.unlisted_glyph (a : Nat) (h : a < 80) : Memory.unlisted f a = f[a] := by
  rw [Memory.unlisted, dif_pos h]

theorem Memory.read_of_lt {m : Memory} {a : Nat} (h : ∀ c ∈ m, a < c.1) : m.read f a = Memory.unlisted f a := by
  induction m with
  | nil => rfl
  | cons c m ih =>
    have hc := h c (by simp)
    rw [Memory.read_cons, if_neg (by omega)]
    exact ih fun d hd => h d (by simp [hd])

theorem Memory.read_place {m : Memory} {a : Nat} (b : Byte) (h : ∀ c ∈ m, a < c.1) (k : Nat) :
    (Memory.place f a b m).read f k = if k = a then b else m.read f k := by
  unfold Memory.place
  split
  · rename_i e
    by_cases hk : k = a
    · subst hk; rw [if_pos rfl, Memory.read_of_lt h, e]
    · rw [if_neg hk]
  · rw [Memory.read_cons]
    by_cases hk : k = a
    · simp [hk]
    · rw [if_neg (by simpa using fun e => hk e.symm), if_neg hk]

/-- Everything a write does: the byte written reads back, every other byte reads as before (R44). -/
theorem Memory.read_write {m : Memory} (hm : m.Pairwise fun c d => c.1 < d.1) (a : Nat) (b : Byte) (k : Nat) :
    (m.write f a b).read f k = if k = a then b else m.read f k := by
  induction m with
  | nil => exact Memory.read_place b (by simp) k
  | cons c m ih =>
    rw [List.pairwise_cons] at hm
    unfold Memory.write
    split
    · rename_i h
      refine Memory.read_place b ?_ k
      intro d hd
      rcases List.mem_cons.1 hd with rfl | hd
      · exact h
      · exact h.trans (hm.1 d hd)
    · split
      · rename_i h
        rw [Memory.read_place b (by rw [h]; exact hm.1), Memory.read_cons]
        by_cases hk : k = a
        · simp [hk]
        · rw [if_neg hk, if_neg hk, if_neg (by omega)]
      · rename_i h1 h2
        rw [Memory.read_cons, Memory.read_cons, ih hm.2]
        by_cases hk : k = a
        · rw [if_neg (by omega), if_pos hk]; simp [hk]
        · simp [hk]

theorem Memory.mem_place {m : Memory} {a : Nat} {b : Byte} {c : Host.Cell} (h : c ∈ Memory.place f a b m) :
    c ∈ m ∨ (c = (a, b) ∧ b ≠ Memory.unlisted f a) := by
  unfold Memory.place at h
  split at h
  · exact .inl h
  · rcases List.mem_cons.1 h with rfl | h
    · exact .inr ⟨rfl, by assumption⟩
    · exact .inl h

theorem Memory.mem_write {m : Memory} {a : Nat} {b : Byte} {c : Host.Cell} (h : c ∈ m.write f a b) :
    c ∈ m ∨ (c = (a, b) ∧ b ≠ Memory.unlisted f a) := by
  induction m with
  | nil => exact Memory.mem_place h
  | cons d m ih =>
    unfold Memory.write at h
    split at h
    · exact Memory.mem_place h
    · split at h
      · rcases Memory.mem_place h with h | h
        · exact .inl (by simp [h])
        · exact .inr h
      · rcases List.mem_cons.1 h with rfl | h
        · exact .inl (by simp)
        · rcases ih h with h | h
          · exact .inl (by simp [h])
          · exact .inr h

theorem Memory.pairwise_place {m : Memory} {a : Nat} (b : Byte) (hm : m.Pairwise fun c d => c.1 < d.1)
    (h : ∀ c ∈ m, a < c.1) : (Memory.place f a b m).Pairwise fun c d => c.1 < d.1 := by
  unfold Memory.place
  split
  · exact hm
  · exact List.pairwise_cons.2 ⟨h, hm⟩

theorem Memory.pairwise_write {m : Memory} (hm : m.Pairwise fun c d => c.1 < d.1) (a : Nat) (b : Byte) :
    (m.write f a b).Pairwise fun c d => c.1 < d.1 := by
  induction m with
  | nil => exact Memory.pairwise_place b hm (by simp)
  | cons c m ih =>
    have hm' := hm
    rw [List.pairwise_cons] at hm
    unfold Memory.write
    split
    · rename_i h
      refine Memory.pairwise_place b hm' fun d hd => ?_
      rcases List.mem_cons.1 hd with rfl | hd
      · exact h
      · exact h.trans (hm.1 d hd)
    · split
      · rename_i h
        exact Memory.pairwise_place b hm.2 (by rw [h]; exact hm.1)
      · rename_i h1 h2
        refine List.pairwise_cons.2 ⟨fun d hd => ?_, ih hm.2⟩
        rcases Memory.mem_write hd with hd | ⟨rfl, -⟩
        · exact hm.1 d hd
        · show c.1 < a; omega

/-- A write inside the Address Space keeps the canonical form. -/
theorem Memory.wf_write {m : Memory} (hm : m.wf f) {a : Nat} (ha : a < Config.memSize) (b : Byte) : (m.write f a b).wf f := by
  refine ⟨Memory.pairwise_write hm.1 a b, fun c hc => ?_⟩
  rcases Memory.mem_write hc with hc | ⟨rfl, hb⟩
  · exact hm.2 c hc
  · exact ⟨ha, hb⟩

theorem Memory.pairwise_writeList {m : Memory} (hm : m.Pairwise fun c d => c.1 < d.1) (a : Nat) (bs : List Byte) :
    (m.writeList f a bs).Pairwise fun c d => c.1 < d.1 := by
  induction bs generalizing m a with
  | nil => exact hm
  | cons b bs ih => exact ih (Memory.pairwise_write hm a b) (a + 1)

/-- Stores inside the Address Space keep the canonical form. -/
theorem Memory.wf_writeList {m : Memory} (hm : m.wf f) (a : Nat) (bs : List Byte) (ha : a + bs.length ≤ Config.memSize) :
    (m.writeList f a bs).wf f := by
  induction bs generalizing m a with
  | nil => exact hm
  | cons b bs ih =>
    simp only [List.length_cons] at ha
    exact ih (Memory.wf_write hm (by omega) b) (a + 1) (by omega)

/-- Everything a run of stores does: the bytes stored read back, every other byte reads as before. -/
theorem Memory.read_writeList {m : Memory} (hm : m.Pairwise fun c d => c.1 < d.1) (a : Nat) (bs : List Byte) (k : Nat) :
    (m.writeList f a bs).read f k = if h : a ≤ k ∧ k < a + bs.length then bs[k - a]'(by omega) else m.read f k := by
  induction bs generalizing m a with
  | nil => rw [dif_neg (by rintro ⟨h1, h2⟩; simp at h2; omega)]; rfl
  | cons b bs ih =>
    rw [Memory.writeList, ih (Memory.pairwise_write hm a b), Memory.read_write hm]
    rcases Nat.lt_trichotomy a k with h | h | h
    · have e : k - a = (k - (a + 1)) + 1 := by omega
      by_cases h2 : k < a + 1 + bs.length
      · rw [dif_pos ⟨h, h2⟩, dif_pos ⟨by omega, by simp; omega⟩]
        simp [e]
      · rw [dif_neg (by omega), dif_neg (by simp; omega), if_neg (by omega)]
    · subst h
      rw [dif_neg (by omega), dif_pos ⟨by omega, by simp⟩]
      simp
    · rw [dif_neg (by omega), dif_neg (by omega), if_neg (by omega)]

@[simp] theorem Memory.length_readList (m : Memory) (a n : Nat) : (m.readList f a n).length = n := by
  induction n generalizing a with
  | zero => rfl
  | succ n ih => simp [Memory.readList, ih]

/-- Byte `k` of a run of loads. -/
theorem Memory.getElem_readList (m : Memory) (a n k : Nat) (h : k < (m.readList f a n).length) :
    (m.readList f a n)[k] = m.read f (a + k) := by
  induction n generalizing a k with
  | zero => simp [Memory.readList] at h
  | succ n ih =>
    cases k with
    | zero => rfl
    | succ k =>
      have := ih (a + 1) k (by simpa using h)
      simp only [Memory.readList, List.getElem_cons_succ, this]
      congr 1; omega

theorem Memory.wf_nil : Memory.wf f [] := by simp [Memory.wf]

/-! ## The Address Space of a state -/

theorem State.memWf_resetWith (f : Font) : (State.resetWith f).memWf := Memory.wf_nil

theorem State.byteAt_resetWith (f : Font) (a : Nat) : (State.resetWith f).byteAt a = Memory.unlisted f a := rfl

@[simp] theorem State.length_bytesAt (s : State) (a n : Nat) : (s.bytesAt a n).length = n := Memory.length_readList ..

theorem State.getElem_bytesAt (s : State) (a n k : Nat) (h : k < (s.bytesAt a n).length) :
    (s.bytesAt a n)[k] = s.byteAt (a + k) := Memory.getElem_readList ..

/-- Everything a run of stores does to the Address Space. -/
theorem State.byteAt_setMem_memWith {s : State} (hm : s.memWf) (a : Nat) (bs : List Byte) (k : Nat) :
    (s.setMem (s.memWith a bs)).byteAt k = if h : a ≤ k ∧ k < a + bs.length then bs[k - a]'(by omega) else s.byteAt k :=
  Memory.read_writeList hm.1 a bs k

theorem State.byteAt_stored {s : State} (hm : s.memWf) {a k : Nat} {bs : List Byte} (h : a ≤ k) (hk : k - a < bs.length) :
    (s.setMem (s.memWith a bs)).byteAt k = bs[k - a] := by
  rw [State.byteAt_setMem_memWith hm, dif_pos ⟨h, by omega⟩]

theorem State.byteAt_not_stored {s : State} (hm : s.memWf) {a k : Nat} {bs : List Byte} (h : k < a ∨ a + bs.length ≤ k) :
    (s.setMem (s.memWith a bs)).byteAt k = s.byteAt k := by
  rw [State.byteAt_setMem_memWith hm, dif_neg (by omega)]

/-- Stores inside the Address Space keep the canonical form. -/
theorem State.memWf_setMem_memWith {s : State} (hm : s.memWf) (a : Nat) (bs : List Byte)
    (ha : a + bs.length ≤ Config.memSize) : (s.setMem (s.memWith a bs)).memWf :=
  Memory.wf_writeList hm a bs ha

end Sys2Proof.Machine
end

