-- ==== Sys2Proof/Laws/Registers.lean ====
section
/-! SUPPORT. Reads after writes of the register file, and what `Fx65`'s loads leave in it. -/

namespace Sys2Proof.Machine

theorem State.getV_setV (s : State) (x r : Nibble) (b : Byte) :
    (s.setV x b).getV r = if r = x then b else s.getV r := by
  simp only [State.getV, State.setV_v, Vector.getElem_set]
  by_cases h : r = x
  · simp [h]
  · have : x.toNat ≠ r.toNat := fun e => h (BitVec.eq_of_toNat_eq e.symm)
    simp [h, this]

@[simp] theorem State.getV_setV_same (s : State) (x : Nibble) (b : Byte) : (s.setV x b).getV x = b := by
  simp [State.getV_setV]

theorem State.getV_setV_ne (s : State) {x r : Nibble} (b : Byte) (h : r ≠ x) : (s.setV x b).getV r = s.getV r := by
  simp [State.getV_setV, h]

theorem State.getV_setRegs (s : State) (w : Vector Byte 16) (r : Nibble) : (s.setRegs w).getV r = w[r.toNat] := rfl

/-- Everything `loadRegs` does: register `j` takes byte `j - k` where there is one, and keeps its value elsewhere. -/
theorem getElem_loadRegs (bs : List Byte) (k : Nat) (v : Vector Byte 16) (j : Nat) (hj : j < 16) :
    (loadRegs bs k v)[j] = if h : k ≤ j ∧ j < k + bs.length then bs[j - k]'(by omega) else v[j] := by
  induction bs generalizing k v with
  | nil => rw [dif_neg (by rintro ⟨h1, h2⟩; simp at h2; omega)]; rfl
  | cons b bs ih =>
    rw [loadRegs, ih, Vector.getElem_setIfInBounds hj]
    rcases Nat.lt_trichotomy k j with h | h | h
    · have e : j - k = (j - (k + 1)) + 1 := by omega
      by_cases h2 : j < k + 1 + bs.length
      · rw [dif_pos ⟨h, h2⟩, dif_pos ⟨by omega, by simp; omega⟩]
        simp [e]
      · rw [dif_neg (by omega), dif_neg (by simp; omega), if_neg (by omega)]
    · subst h
      rw [dif_neg (by omega), dif_pos ⟨by omega, by simp⟩]
      simp
    · rw [dif_neg (by omega), dif_neg (by omega), if_neg (by omega)]

theorem State.length_regsUpTo (s : State) (x : Nibble) : (s.regsUpTo x).length = x.toNat + 1 := by
  have := x.isLt
  simp [State.regsUpTo]; omega

/-- Byte `k` of what `Fx55` stores is `V[k]`. -/
theorem State.getElem_regsUpTo (s : State) (x : Nibble) (k : Nat) (h : k < (s.regsUpTo x).length) :
    (s.regsUpTo x)[k] = s.v[k]'(by have := x.isLt; rw [State.length_regsUpTo] at h; omega) := by
  simp [State.regsUpTo]

end Sys2Proof.Machine
end

