-- ==== Sys2Proof/Laws/Ops.lean ====
section
/-! SUPPORT. One lemma per shared operation that says everything it can do: the checks, the stack controller, the fetch, the end of
an instruction, the step. -/

namespace Sys2Proof.Machine

@[simp] theorem State.finish_ok (s t : State) : s.finish (.ok t) = .next t := rfl
@[simp] theorem State.finish_error (s : State) (c : Fatal) : s.finish (.error c) = .next (s.raise c) := rfl

/-- An instruction that checks first ends in the state it computed, or raises the condition it met and changes nothing else (R8, R120). -/
theorem State.finish_cases (s : State) (r : Except Fatal State) :
    (∃ t, r = .ok t ∧ s.finish r = .next t) ∨ (∃ c, r = .error c ∧ s.finish r = .next (s.raise c)) := by
  cases r with
  | ok t => exact .inl ⟨t, rfl, rfl⟩
  | error c => exact .inr ⟨c, rfl, rfl⟩

/-- The range check as the rules write it (R98 to R101, R104). -/
theorem outOfBounds_iff (a n : Nat) : outOfBounds a n = true ↔ 0 < n ∧ 4095 < a + n - 1 := by
  simp [outOfBounds, Nat.pos_iff_ne_zero]

theorem outOfBounds_eq_false_iff (a n : Nat) : outOfBounds a n = false ↔ (n = 0 ∨ a + n ≤ 4096) := by
  rw [← Bool.not_eq_true, outOfBounds_iff]; omega

theorem State.loadBytes_ok (s : State) {a n : Nat} (h : n = 0 ∨ a + n ≤ 4096) : s.loadBytes a n = .ok (s.bytesAt a n) := by
  rw [State.loadBytes, (outOfBounds_eq_false_iff a n).2 h]; rfl

theorem State.loadBytes_error (s : State) {a n : Nat} (h0 : 0 < n) (h : 4096 < a + n) : s.loadBytes a n = .error .memoryBounds := by
  rw [State.loadBytes, (outOfBounds_iff a n).2 ⟨h0, by omega⟩]; rfl

theorem State.storeBytes_ok (s : State) {a : Nat} {bs : List Byte} (h : bs = [] ∨ a + bs.length ≤ 4096) :
    s.storeBytes a bs = .ok (s.setMem (s.memWith a bs)) := by
  rw [State.storeBytes, (outOfBounds_eq_false_iff a bs.length).2 (by simpa using h)]; rfl

theorem State.storeBytes_error (s : State) {a : Nat} {bs : List Byte} (h0 : bs ≠ []) (h : 4096 < a + bs.length) :
    s.storeBytes a bs = .error .memoryBounds := by
  have := List.length_pos_of_ne_nil h0
  rw [State.storeBytes, (outOfBounds_iff a bs.length).2 ⟨this, by omega⟩]; rfl

/-- Every byte an accepted store touches exists, and the canonical form is kept. -/
theorem State.storeBytes_cases (s : State) (a : Nat) (bs : List Byte) (hm : s.memWf) :
    (∃ t, s.storeBytes a bs = .ok t ∧ t = s.setMem (s.memWith a bs) ∧ t.memWf) ∨ s.storeBytes a bs = .error .memoryBounds := by
  by_cases h : bs = [] ∨ a + bs.length ≤ 4096
  · refine .inl ⟨_, State.storeBytes_ok s h, rfl, ?_⟩
    rcases h with rfl | h
    · exact hm
    · exact State.memWf_setMem_memWith hm a bs h
  · rw [not_or] at h
    exact .inr (State.storeBytes_error s h.1 (by omega))

theorem State.pushReturn_full (s : State) (a : Word) (h : s.sp.val = 15) : s.pushReturn a = .error .stackOverflow := by
  simp [State.pushReturn, h]

/-- A push that succeeds raises `sp` by one and writes the slot `sp` then names (R65). -/
theorem State.pushReturn_ok (s : State) (a : Word) (h : s.sp.val ≠ 15) :
    s.pushReturn a = .ok (s.setStack ⟨s.sp.val + 1, by omega⟩ (s.stack.set (s.sp.val + 1) a (by omega))) := by
  simp [State.pushReturn, h]

theorem State.popReturn_empty (s : State) (h : s.sp.val = 0) : s.popReturn = .error .stackUnderflow := by
  simp [State.popReturn, h]

/-- A pop that succeeds reads the slot `sp` names and lowers `sp` by one; the slot keeps its value (R66). -/
theorem State.popReturn_ok (s : State) (h : s.sp.val ≠ 0) :
    s.popReturn = .ok (s.stack[s.sp.val], s.setStack ⟨s.sp.val - 1, by omega⟩ s.stack) := by
  simp [State.popReturn, h]

theorem State.fetch_ok (s : State) (h : s.pc.toNat ≤ 4094) :
    s.fetch = .ok (wordOfBytes (s.byteAt s.pc.toNat) (s.byteAt (s.pc.toNat + 1))) := by
  rw [State.fetch, if_neg (by omega)]

theorem State.fetch_error (s : State) (h : 4094 < s.pc.toNat) : s.fetch = .error .memoryBounds := by
  rw [State.fetch, if_pos h]

/-- Everything a step can do (R58, R121). -/
theorem step_cases (s : State) :
    (∃ c, s.fault = some c ∧ step s = .next s)
      ∨ (s.fault = none ∧ 4094 < s.pc.toNat ∧ step s = .next (s.raise .memoryBounds))
      ∨ (∃ op, s.fault = none ∧ s.pc.toNat ≤ 4094 ∧ s.fetch = .ok op ∧ step s = exec (decodeWord op) s) := by
  unfold step
  cases hf : s.fault with
  | some c => exact .inl ⟨c, rfl, rfl⟩
  | none =>
    by_cases h : 4094 < s.pc.toNat
    · refine .inr (.inl ⟨rfl, h, ?_⟩)
      rw [State.fetch_error s h]
    · refine .inr (.inr ⟨_, rfl, by omega, State.fetch_ok s (by omega), ?_⟩)
      rw [State.fetch_ok s (by omega)]

end Sys2Proof.Machine
end

