-- ==== Sys2Proof/Laws/Keeps.lean ====
section
/-! SUPPORT. What the common ends of an instruction keep: a new `pc`, a raised condition, a register written, a flag written. -/

namespace Sys2Proof.Machine

theorem KeepsExcept.refl (ps : List Part) (s : State) : KeepsExcept ps s s := by
  intro p _; cases p <;> simp [Part.kept]

theorem KeepsExcept.trans {ps : List Part} {s t u : State} (h : KeepsExcept ps s t) (h' : KeepsExcept ps t u) :
    KeepsExcept ps s u := by
  intro p hp
  have a := h p hp
  have b := h' p hp
  cases p <;> simp_all [Part.kept]

theorem KeepsExcept.mono {ps qs : List Part} {s t : State} (h : KeepsExcept ps s t) (hs : ∀ p ∈ ps, p ∈ qs) :
    KeepsExcept qs s t :=
  fun p hp => h p fun hq => hp (hs p hq)

theorem keeps_raise (s : State) (c : Fatal) : KeepsExcept [.fault] s (s.raise c) := by
  intro p hp; cases p <;> simp_all [Part.kept]

theorem keeps_setPc (s : State) (a : Word) : KeepsExcept [.pc] s (s.setPc a) := by
  intro p hp; cases p <;> simp_all [Part.kept]

theorem keeps_advance (s : State) : KeepsExcept [.pc] s s.advance := keeps_setPc s _

theorem keeps_setV (s : State) (x : Nibble) (b : Byte) : KeepsExcept [.regs] s (s.setV x b) := by
  intro p hp; cases p <;> simp_all [Part.kept]

theorem keepsRegs_setV (s : State) (x : Nibble) (b : Byte) : KeepsRegsExcept [x] s (s.setV x b).advance := by
  intro r hr; simp_all [State.getV_setV]

theorem keepsRegs_flagged (s : State) (x : Nibble) (b c : Byte) :
    KeepsRegsExcept [x, flagReg] s ((s.setV x b).setV flagReg c).advance := by
  intro r hr; simp_all [State.getV_setV]

end Sys2Proof.Machine
end

