-- ==== Sys2Proof/Laws/Exec.lean ====
section
/-! SUPPORT. Inversion: all that an instruction with more than one end can do, one lemma per instruction, so that no later proof
unfolds its meaning; the key scan and the sprite of `Dxyn` in the words of the statements. -/

namespace Sys2Proof.Machine

/-- A running core executes its current instruction (R58). -/
theorem step_of_current {s : State} {i : Instr} (hr : s.running) (h : s.current = some i) : step s = exec i s := by
  unfold State.current at h
  unfold step
  rw [hr]
  cases hf : s.fetch with
  | ok op => simp only [hf, Option.some.injEq] at h ⊢; rw [h]
  | error c => simp [hf] at h

/-- An instruction that ends by advancing an unmoved `pc` is no fixed point. -/
theorem State.advance_ne {s t : State} (h : t.pc = s.pc) : t.advance ≠ s := by
  intro e
  have := congrArg State.pc e
  simp [h] at this

/-- `00EE` (R67). -/
theorem exec_ret_cases {s t : State} (h : exec .ret s = .next t) :
    (s.sp.val = 0 ∧ t = s.raise .stackUnderflow)
      ∨ (∃ _ : s.sp.val ≠ 0, t = (s.setStack ⟨s.sp.val - 1, by omega⟩ s.stack).setPc (s.stack[s.sp.val] + 2#16)) := by
  by_cases h0 : s.sp.val = 0
  · simp only [exec, execRet, State.popReturn_empty s h0, Except.map, State.finish_error] at h
    cases h; exact .inl ⟨h0, rfl⟩
  · simp only [exec, execRet, State.popReturn_ok s h0, Except.map, State.finish_ok] at h
    cases h; exact .inr ⟨h0, rfl⟩

/-- `2nnn` (R69). -/
theorem exec_call_cases {s t : State} {nnn : Addr12} (h : exec (.call nnn) s = .next t) :
    (s.sp.val = 15 ∧ t = s.raise .stackOverflow)
      ∨ (∃ _ : s.sp.val ≠ 15, t = (s.setStack ⟨s.sp.val + 1, by omega⟩
          (s.stack.set (s.sp.val + 1) s.pc (by omega))).setPc (zextAddr nnn)) := by
  by_cases h0 : s.sp.val = 15
  · simp only [exec, execCall, State.pushReturn_full s _ h0, Except.map, State.finish_error] at h
    cases h; exact .inl ⟨h0, rfl⟩
  · simp only [exec, execCall, State.pushReturn_ok s _ h0, Except.map, State.finish_ok] at h
    cases h; exact .inr ⟨h0, rfl⟩

/-- The state after a draw in bounds (R104). -/
def State.afterDraw (s : State) (x y n : Nibble) : State :=
  ((s.setFb (s.drawn x y (s.bytesAt s.base n.toNat)).1).setV flagReg
    (flagByte (s.drawn x y (s.bytesAt s.base n.toNat)).2)).advance

/-- `Dxyn` in bounds (R104). -/
theorem exec_drw_ok (s : State) (x y n : Nibble) (h : n.toNat = 0 ∨ s.i.toNat + n.toNat - 1 ≤ 4095) :
    exec (.drw x y n) s = .next (s.afterDraw x y n) := by
  simp only [exec, execDrw]
  rw [State.loadBytes_ok s (by simp [State.base]; omega)]
  rfl

/-- `Dxyn` (R104). -/
theorem exec_drw_cases {s t : State} {x y n : Nibble} (h : exec (.drw x y n) s = .next t) :
    (0 < n.toNat ∧ 4095 < s.i.toNat + n.toNat - 1 ∧ t = s.raise .memoryBounds)
      ∨ ((n.toNat = 0 ∨ s.i.toNat + n.toNat - 1 ≤ 4095) ∧ t = s.afterDraw x y n) := by
  by_cases h0 : n.toNat = 0 ∨ s.i.toNat + n.toNat - 1 ≤ 4095
  · rw [exec_drw_ok s x y n h0] at h
    cases h; exact .inr ⟨h0, rfl⟩
  · simp only [exec, execDrw] at h
    rw [State.loadBytes_error s (by omega) (by simp [State.base]; omega)] at h
    cases h; exact .inl ⟨by omega, by omega, rfl⟩

/-- `Fx33` (R98). -/
theorem exec_ldB_cases {s t : State} {x : Nibble} (h : exec (.ldB x) s = .next t) :
    (4095 < s.i.toNat + 2 ∧ t = s.raise .memoryBounds)
      ∨ (s.i.toNat + 2 ≤ 4095 ∧ t = (s.setMem (s.memWith s.base (decimalDigits (s.getV x)))).advance) := by
  by_cases h0 : s.i.toNat + 2 ≤ 4095
  · simp only [exec, execLdB] at h
    rw [State.storeBytes_ok s (.inr (by simp [State.base]; omega))] at h
    cases h; exact .inr ⟨h0, rfl⟩
  · simp only [exec, execLdB] at h
    rw [State.storeBytes_error s (by simp [decimalDigits]) (by simp [State.base]; omega)] at h
    cases h; exact .inl ⟨by omega, rfl⟩

theorem State.regsUpTo_ne_nil (s : State) (x : Nibble) : s.regsUpTo x ≠ [] := by
  intro e
  have := s.length_regsUpTo x
  simp [e] at this

/-- `Fx55` (R99). -/
theorem exec_ldMemVx_cases {s t : State} {x : Nibble} (h : exec (.ldMemVx x) s = .next t) :
    (4095 < s.i.toNat + x.toNat ∧ t = s.raise .memoryBounds)
      ∨ (s.i.toNat + x.toNat ≤ 4095 ∧ t = (s.setMem (s.memWith s.base (s.regsUpTo x))).advance) := by
  by_cases h0 : s.i.toNat + x.toNat ≤ 4095
  · simp only [exec, execLdMemVx] at h
    rw [State.storeBytes_ok s (.inr (by simp [State.base, State.length_regsUpTo]; omega))] at h
    cases h; exact .inr ⟨h0, rfl⟩
  · simp only [exec, execLdMemVx] at h
    rw [State.storeBytes_error s (s.regsUpTo_ne_nil x) (by simp [State.base, State.length_regsUpTo]; omega)] at h
    cases h; exact .inl ⟨by omega, rfl⟩

/-- Every byte once `Fx55` has stored (R99). -/
theorem State.toNat_byteAt_afterRegs {s : State} (hm : s.memWf) (x : Nibble) (a : Nat) :
    ((s.setMem (s.memWith s.base (s.regsUpTo x))).byteAt a).toNat = s.byteAfterRegs x a := by
  have hl := s.length_regsUpTo x
  unfold State.byteAfterRegs
  split
  · rename_i h
    rw [State.byteAt_stored hm (show s.base ≤ a from h.1) (by simp only [State.base]; omega), State.getElem_regsUpTo]
    have := x.isLt
    simp [State.base, State.getV, Nat.mod_eq_of_lt (show a - s.i.toNat < 16 by omega)]
  · rw [State.byteAt_not_stored hm (by simp only [State.base]; omega)]

/-- Every byte once `Fx33` has stored (R98). -/
theorem State.toNat_byteAt_afterDigits {s : State} (hm : s.memWf) (x : Nibble) (a : Nat) :
    ((s.setMem (s.memWith s.base (decimalDigits (s.getV x)))).byteAt a).toNat = s.byteAfterDigits x a := by
  have hv := (s.getV x).isLt
  have hl : (decimalDigits (s.getV x)).length = 3 := rfl
  have inside : ∀ k, (h : k < 3) → (s.setMem (s.memWith s.base (decimalDigits (s.getV x)))).byteAt (s.i.toNat + k)
      = (decimalDigits (s.getV x))[k]'(by omega) := fun k h => by
    rw [State.byteAt_stored hm (by simp only [State.base]; omega) (by simp only [State.base]; omega)]
    simp [State.base]
  unfold State.byteAfterDigits
  split_ifs with h0 h1 h2
  · subst h0; rw [show s.i.toNat = s.i.toNat + 0 from rfl, inside 0 (by omega)]; simp [decimalDigits]; omega
  · subst h1; rw [inside 1 (by omega)]; simp [decimalDigits]; omega
  · subst h2; rw [inside 2 (by omega)]; simp [decimalDigits]; omega
  · rw [State.byteAt_not_stored hm (by simp only [State.base]; omega)]

/-- `Fx65` (R100). -/
theorem exec_ldVxMem_cases {s t : State} {x : Nibble} (h : exec (.ldVxMem x) s = .next t) :
    (4095 < s.i.toNat + x.toNat ∧ t = s.raise .memoryBounds)
      ∨ (s.i.toNat + x.toNat ≤ 4095
        ∧ t = (s.setRegs (loadRegs (s.bytesAt s.base (x.toNat + 1)) 0 s.v)).advance) := by
  by_cases h0 : s.i.toNat + x.toNat ≤ 4095
  · simp only [exec, execLdVxMem] at h
    rw [State.loadBytes_ok s (.inr (by simp [State.base]; omega))] at h
    cases h; exact .inr ⟨h0, rfl⟩
  · simp only [exec, execLdVxMem] at h
    rw [State.loadBytes_error s (by simp) (by simp [State.base]; omega)] at h
    cases h; exact .inl ⟨by omega, rfl⟩

/-- Every register once `Fx65` has loaded (R100). -/
theorem State.getV_afterLoad (s : State) (x r : Nibble) :
    (s.setRegs (loadRegs (s.bytesAt s.base (x.toNat + 1)) 0 s.v)).getV r
      = if r.toNat ≤ x.toNat then s.byteAt (s.i.toNat + r.toNat) else s.getV r := by
  rw [State.getV_setRegs, getElem_loadRegs]
  split <;> rename_i h <;> simp only [State.length_bytesAt] at h
  · rw [if_pos (by omega), State.getElem_bytesAt]; simp [State.base]
  · rw [if_neg (by omega)]; rfl

/-- `Fx0A` (R110). -/
theorem exec_ldVxK_cases {s t : State} {x : Nibble} (h : exec (.ldVxK x) s = .next t) :
    (s.firstKey = none ∧ t = s) ∨ (∃ k, s.firstKey = some k ∧ t = (s.setV x (BitVec.ofNat 8 k)).advance) := by
  simp only [exec, execLdVxK] at h
  split at h <;> cases h <;> simp_all

/-! ## The key scan (R113) -/

theorem State.firstKey_eq_none_iff (s : State) : s.firstKey = none ↔ ∀ k, s.keyHeld k = false := by
  simp only [State.firstKey, List.findIdx?_eq_none_iff, State.keyHeld]
  constructor
  · intro h k; simpa using h _ (Vector.mem_toList_iff.2 (Vector.getElem_mem k.isLt))
  · intro h b hb
    obtain ⟨i, hi, rfl⟩ := List.getElem_of_mem hb
    have hi' : i < 16 := by simpa using hi
    have := h (BitVec.ofNat 4 i)
    simp only [BitVec.toNat_ofNat, Nat.mod_eq_of_lt (show i < 2 ^ 4 from hi')] at this
    simpa using this

theorem State.firstKey_eq_some (s : State) (k : Nibble) (hk : s.keyHeld k = true)
    (hl : ∀ j : Nibble, j.toNat < k.toNat → s.keyHeld j = false) : s.firstKey = some k.toNat := by
  simp only [State.firstKey, List.findIdx?_eq_some_iff_getElem]
  refine ⟨by simpa using k.isLt, by simpa [State.keyHeld] using hk, fun j hj => ?_⟩
  have := k.isLt
  have := hl (BitVec.ofNat 4 j) (by simp; omega)
  simp only [State.keyHeld, BitVec.toNat_ofNat, Nat.mod_eq_of_lt (show j < 2 ^ 4 by omega)] at this
  simpa using this

/-! ## The sprite of `Dxyn` (R104) -/

theorem State.mem_spritePixels_iff (s : State) (x y n : Nibble) (px py : Nat) :
    (px, py) ∈ spritePixels (s.bytesAt s.base n.toNat) (s.getV x).toNat (s.getV y).toNat
      ↔ s.spriteSets x y n px py = true := by
  rw [mem_spritePixels]
  simp only [State.spriteSets, Bool.and_eq_true, decide_eq_true_eq, State.length_bytesAt, State.getElem_bytesAt,
    State.base]
  constructor
  · rintro ⟨h1, h2, h3, h4, h5⟩; exact ⟨⟨⟨⟨h1, h2⟩, h3⟩, by omega⟩, h5⟩
  · rintro ⟨⟨⟨⟨h1, h2⟩, h3⟩, h4⟩, h5⟩; exact ⟨h1, h2, h3, by omega, h5⟩

end Sys2Proof.Machine
end

