-- ==== Sys2Proof/Laws/Host.lean ====
section
/-! SUPPORT. The host's side: which actions a session admits and what they do to the core (20_memory.md R52; 70_reset_and_hazards.md
R138), and that sessions reach no more than `Reach` does. -/

namespace Sys2Proof.Machine

/-- A host action of a session does to the core what `hostAct` says. -/
theorem Session.host_state {z z' : Session} {a : HostAction} (h : z.host a = some z') : z'.state = z.state.hostAct a := by
  cases a with
  | loadImage bytes =>
    simp only [Session.host] at h
    split at h <;> cases h
    rfl
  | reset => cases h; rfl
  | setKey k b => cases h; rfl
  | timerTick => cases h; rfl

/-- The one action a session refuses is a load outside the time between `Reset` and the first `Step` or load (R52, R138). -/
theorem Session.host_eq_none_iff (z : Session) (a : HostAction) :
    z.host a = none ↔ (∃ bytes, a = .loadImage bytes) ∧ z.phase ≠ .afterReset := by
  cases a <;> simp [Session.host]

/-- The result of a load is whether the image fits (R50). -/
theorem State.loadImage_ok (s : State) (bytes : List Byte) :
    (s.loadImage bytes).2 = decide (bytes.length ≤ Config.maxImage) := by
  unfold State.loadImage
  split <;> simp <;> omega

/-- A rejected load leaves the core as it is (R50). -/
theorem State.loadImage_rejected {s : State} {bytes : List Byte} (h : (s.loadImage bytes).2 = false) :
    (s.loadImage bytes).1 = s := by
  unfold State.loadImage at h ⊢
  split at h
  · rw [if_pos ‹_›]
  · cases h

/-- What the boot sequence keeps: the host steps only after a load that fitted, `loadOk` tells a rejected load, and until an image
is loaded memory is as `Reset` left it (R52, R138). -/
structure Session.Booted (z : Session) : Prop where
  okWhereStepping : z.phase.maySteps = true → z.loadOk = some true
  rejectedIsTold : z.phase = .rejected → z.loadOk = some false
  memBeforeLoad : z.phase.maySteps = false → z.state.mem = State.reset.mem

theorem Session.Reachable.booted {z : Session} (h : Session.Reachable z) : z.Booted := by
  induction h with
  | start f => exact ⟨nofun, nofun, fun _ => rfl⟩
  | step _ hp _ ih => exact ⟨fun _ => ih.okWhereStepping hp, nofun, nofun⟩
  | @host z z' a _ ha ih =>
    cases a with
    | reset => cases ha; exact ⟨nofun, nofun, fun _ => rfl⟩
    | setKey k b => cases ha; exact ⟨ih.okWhereStepping, ih.rejectedIsTold, ih.memBeforeLoad⟩
    | timerTick => cases ha; exact ⟨ih.okWhereStepping, ih.rejectedIsTold, ih.memBeforeLoad⟩
    | loadImage bytes =>
      simp only [Session.host] at ha
      split at ha <;> cases ha
      cases hl : (z.state.loadImage bytes).2 with
      | true => exact ⟨fun _ => rfl, nofun, nofun⟩
      | false =>
        refine ⟨nofun, fun _ => rfl, fun _ => ?_⟩
        rw [← ih.memBeforeLoad (by rw [‹z.phase = _›]; rfl)]
        exact congrArg State.mem (State.loadImage_rejected hl)

/-- A host that keeps the boot sequence reaches no state that steps and host actions in any order do not. -/
theorem Session.Reachable.reach {z : Session} (h : Session.Reachable z) : Reach z.state := by
  induction h with
  | start f => exact .reset f
  | step _ _ hs ih => exact .step ih hs
  | host a _ ha ih => rw [Session.host_state ha]; exact .host a ih

/-- Only an image that fits has a run (R138, R140). -/
theorem Run.image_fits {f : Font} {image : List Byte} {s : State} (h : Run f image s) : image.length ≤ Config.maxImage := by
  induction h with
  | launch _ hl => exact hl
  | step _ _ ih => exact ih
  | setKey _ _ _ ih => exact ih
  | timerTick _ ih => exact ih

end Sys2Proof.Machine
end

