-- ==== Sys2Proof/Laws/PerInstr.lean ====
section
/-! SUPPORT. Per instruction: its word has the fixed bits of its row of the opcode table (30_encoding.md R59). -/

namespace Sys2Proof

/-- The word of an instruction is hit by the instruction's own row of R59, if it has one. -/
def Laws.EncodingFitsRow.Statement (i : Instr) : Prop := ∀ row, rowOf i = some row → row.hits (encode i) = true

/-- A row that is the instruction's own hits its word when the word, masked, is the row's pattern. -/
theorem fitsRow_of_fixed {i : Instr} {m p : Word} (hr : rowOf i = some ⟨m, p⟩) (h : encode i &&& m = p) :
    Laws.EncodingFitsRow.Statement i := by
  intro row hrow
  obtain rfl := Option.some.inj (hr.symm.trans hrow)
  simpa [OpcodeRow.hits] using h

theorem Laws.EncodingFitsRow.cls : Laws.EncodingFitsRow.Statement .cls :=
  fitsRow_of_fixed rfl (by decide)

theorem Laws.EncodingFitsRow.ret : Laws.EncodingFitsRow.Statement .ret :=
  fitsRow_of_fixed rfl (by decide)

theorem Laws.EncodingFitsRow.jp (nnn : Addr12) : Laws.EncodingFitsRow.Statement (.jp nnn) :=
  fitsRow_of_fixed rfl ((formatA_fixed _ _).trans (by decide))

theorem Laws.EncodingFitsRow.call (nnn : Addr12) : Laws.EncodingFitsRow.Statement (.call nnn) :=
  fitsRow_of_fixed rfl ((formatA_fixed _ _).trans (by decide))

theorem Laws.EncodingFitsRow.seImm (x : Nibble) (kk : Byte) : Laws.EncodingFitsRow.Statement (.seImm x kk) :=
  fitsRow_of_fixed rfl ((formatK_fixed _ _ _).trans (by decide))

theorem Laws.EncodingFitsRow.sneImm (x : Nibble) (kk : Byte) : Laws.EncodingFitsRow.Statement (.sneImm x kk) :=
  fitsRow_of_fixed rfl ((formatK_fixed _ _ _).trans (by decide))

theorem Laws.EncodingFitsRow.seReg (x y n : Nibble) : Laws.EncodingFitsRow.Statement (.seReg x y n) :=
  fitsRow_of_fixed rfl ((formatD_fixed _ _ _ _).trans (by decide))

theorem Laws.EncodingFitsRow.ldImm (x : Nibble) (kk : Byte) : Laws.EncodingFitsRow.Statement (.ldImm x kk) :=
  fitsRow_of_fixed rfl ((formatK_fixed _ _ _).trans (by decide))

theorem Laws.EncodingFitsRow.addImm (x : Nibble) (kk : Byte) : Laws.EncodingFitsRow.Statement (.addImm x kk) :=
  fitsRow_of_fixed rfl ((formatK_fixed _ _ _).trans (by decide))

theorem Laws.EncodingFitsRow.ldReg (x y : Nibble) : Laws.EncodingFitsRow.Statement (.ldReg x y) :=
  fitsRow_of_fixed rfl ((formatR_fixed _ _ _ _).trans (by decide))

theorem Laws.EncodingFitsRow.orReg (x y : Nibble) : Laws.EncodingFitsRow.Statement (.orReg x y) :=
  fitsRow_of_fixed rfl ((formatR_fixed _ _ _ _).trans (by decide))

theorem Laws.EncodingFitsRow.andReg (x y : Nibble) : Laws.EncodingFitsRow.Statement (.andReg x y) :=
  fitsRow_of_fixed rfl ((formatR_fixed _ _ _ _).trans (by decide))

theorem Laws.EncodingFitsRow.xorReg (x y : Nibble) : Laws.EncodingFitsRow.Statement (.xorReg x y) :=
  fitsRow_of_fixed rfl ((formatR_fixed _ _ _ _).trans (by decide))

theorem Laws.EncodingFitsRow.addReg (x y : Nibble) : Laws.EncodingFitsRow.Statement (.addReg x y) :=
  fitsRow_of_fixed rfl ((formatR_fixed _ _ _ _).trans (by decide))

theorem Laws.EncodingFitsRow.sub (x y : Nibble) : Laws.EncodingFitsRow.Statement (.sub x y) :=
  fitsRow_of_fixed rfl ((formatR_fixed _ _ _ _).trans (by decide))

theorem Laws.EncodingFitsRow.shr (x y : Nibble) : Laws.EncodingFitsRow.Statement (.shr x y) :=
  fitsRow_of_fixed rfl ((formatR_fixed _ _ _ _).trans (by decide))

theorem Laws.EncodingFitsRow.subn (x y : Nibble) : Laws.EncodingFitsRow.Statement (.subn x y) :=
  fitsRow_of_fixed rfl ((formatR_fixed _ _ _ _).trans (by decide))

theorem Laws.EncodingFitsRow.shl (x y : Nibble) : Laws.EncodingFitsRow.Statement (.shl x y) :=
  fitsRow_of_fixed rfl ((formatR_fixed _ _ _ _).trans (by decide))

theorem Laws.EncodingFitsRow.sneReg (x y n : Nibble) : Laws.EncodingFitsRow.Statement (.sneReg x y n) :=
  fitsRow_of_fixed rfl ((formatD_fixed _ _ _ _).trans (by decide))

theorem Laws.EncodingFitsRow.ldI (nnn : Addr12) : Laws.EncodingFitsRow.Statement (.ldI nnn) :=
  fitsRow_of_fixed rfl ((formatA_fixed _ _).trans (by decide))

theorem Laws.EncodingFitsRow.jpV0 (nnn : Addr12) : Laws.EncodingFitsRow.Statement (.jpV0 nnn) :=
  fitsRow_of_fixed rfl ((formatA_fixed _ _).trans (by decide))

theorem Laws.EncodingFitsRow.rnd (x : Nibble) (kk : Byte) : Laws.EncodingFitsRow.Statement (.rnd x kk) :=
  fitsRow_of_fixed rfl ((formatK_fixed _ _ _).trans (by decide))

theorem Laws.EncodingFitsRow.drw (x y n : Nibble) : Laws.EncodingFitsRow.Statement (.drw x y n) :=
  fitsRow_of_fixed rfl ((formatD_fixed _ _ _ _).trans (by decide))

theorem Laws.EncodingFitsRow.skp (x : Nibble) : Laws.EncodingFitsRow.Statement (.skp x) :=
  fitsRow_of_fixed rfl ((formatX_fixed _ _ _).trans (by decide))

theorem Laws.EncodingFitsRow.sknp (x : Nibble) : Laws.EncodingFitsRow.Statement (.sknp x) :=
  fitsRow_of_fixed rfl ((formatX_fixed _ _ _).trans (by decide))

theorem Laws.EncodingFitsRow.ldVxDT (x : Nibble) : Laws.EncodingFitsRow.Statement (.ldVxDT x) :=
  fitsRow_of_fixed rfl ((formatX_fixed _ _ _).trans (by decide))

theorem Laws.EncodingFitsRow.ldVxK (x : Nibble) : Laws.EncodingFitsRow.Statement (.ldVxK x) :=
  fitsRow_of_fixed rfl ((formatX_fixed _ _ _).trans (by decide))

theorem Laws.EncodingFitsRow.ldDTVx (x : Nibble) : Laws.EncodingFitsRow.Statement (.ldDTVx x) :=
  fitsRow_of_fixed rfl ((formatX_fixed _ _ _).trans (by decide))

theorem Laws.EncodingFitsRow.ldSTVx (x : Nibble) : Laws.EncodingFitsRow.Statement (.ldSTVx x) :=
  fitsRow_of_fixed rfl ((formatX_fixed _ _ _).trans (by decide))

theorem Laws.EncodingFitsRow.addI (x : Nibble) : Laws.EncodingFitsRow.Statement (.addI x) :=
  fitsRow_of_fixed rfl ((formatX_fixed _ _ _).trans (by decide))

theorem Laws.EncodingFitsRow.ldF (x : Nibble) : Laws.EncodingFitsRow.Statement (.ldF x) :=
  fitsRow_of_fixed rfl ((formatX_fixed _ _ _).trans (by decide))

theorem Laws.EncodingFitsRow.ldB (x : Nibble) : Laws.EncodingFitsRow.Statement (.ldB x) :=
  fitsRow_of_fixed rfl ((formatX_fixed _ _ _).trans (by decide))

theorem Laws.EncodingFitsRow.ldMemVx (x : Nibble) : Laws.EncodingFitsRow.Statement (.ldMemVx x) :=
  fitsRow_of_fixed rfl ((formatX_fixed _ _ _).trans (by decide))

theorem Laws.EncodingFitsRow.ldVxMem (x : Nibble) : Laws.EncodingFitsRow.Statement (.ldVxMem x) :=
  fitsRow_of_fixed rfl ((formatX_fixed _ _ _).trans (by decide))

theorem Laws.EncodingFitsRow.undef (op : Word) : Laws.EncodingFitsRow.Statement (.undef op) :=
  fun _ h => nomatch h

end Sys2Proof
end

