-- ==== Sys2Proof/Tests/Slice0.lean ====
section
/-! SUPPORT. The model's own tests: ill-formed terms, one word per constructor written out from the spec's encoding, the spec's
vectors (95_test_vectors.md, quoted by number) each as one step on a small state, and a witness for the hypotheses of each statement. -/

namespace Sys2Proof.Tests

open Sys2Proof.Machine

/-! ## Helpers -/

/-- The reset state about to run the word `w` at 0x200. -/
def start (w : Nat) : State := State.reset.withFetchWord 16 w

/-- Whether the step of `s` answers a next state of which `f` holds. -/
def after (s : State) (f : State → Bool) : Bool :=
  match step s with
  | .next t => f t
  | _ => false

/-- `s` with register `x` holding `b`. -/
def withV (x : Nibble) (b : Byte) (s : State) : State := s.setV x b

/-- `s` with the bytes `bs` at `a`. -/
def withBytes (a : Nat) (bs : List Byte) (s : State) : State := s.setMem (s.memWith a bs)

/-! ## WellFormed refuses an ill-formed term: `undef` of a word that is an instruction -/

theorem test_wf_refuses_undef_of_cls : (Instr.undef 0x00E0#16).wf = false := by decide
theorem test_wf_refuses_undef_of_skip : (Instr.undef 0x5127#16).wf = false := by decide
theorem test_wf_accepts_undef : (Instr.undef 0x8018#16).wf = true := by decide

/-! ## Decoding: a word of every row of R59, and the near misses of R60 -/

theorem test_decode_cls : decodeWord 0x00E0#16 = .cls := by decide
theorem test_decode_ret : decodeWord 0x00EE#16 = .ret := by decide
theorem test_decode_jp : decodeWord 0x1234#16 = .jp 0x234#12 := by decide
theorem test_decode_call : decodeWord 0x2ABC#16 = .call 0xABC#12 := by decide
theorem test_decode_seImm : decodeWord 0x332A#16 = .seImm 3#4 0x2A#8 := by decide
theorem test_decode_sneImm : decodeWord 0x432A#16 = .sneImm 3#4 0x2A#8 := by decide
theorem test_decode_seReg : decodeWord 0x5127#16 = .seReg 1#4 2#4 7#4 := by decide
theorem test_decode_ldImm : decodeWord 0x6A3E#16 = .ldImm 0xA#4 0x3E#8 := by decide
theorem test_decode_addImm : decodeWord 0x70FF#16 = .addImm 0#4 0xFF#8 := by decide
theorem test_decode_ldReg : decodeWord 0x8EF0#16 = .ldReg 0xE#4 0xF#4 := by decide
theorem test_decode_orReg : decodeWord 0x8121#16 = .orReg 1#4 2#4 := by decide
theorem test_decode_andReg : decodeWord 0x8122#16 = .andReg 1#4 2#4 := by decide
theorem test_decode_xorReg : decodeWord 0x8123#16 = .xorReg 1#4 2#4 := by decide
theorem test_decode_addReg : decodeWord 0x8F14#16 = .addReg 0xF#4 1#4 := by decide
theorem test_decode_sub : decodeWord 0x8125#16 = .sub 1#4 2#4 := by decide
theorem test_decode_shr : decodeWord 0x8406#16 = .shr 4#4 0#4 := by decide
theorem test_decode_subn : decodeWord 0x8127#16 = .subn 1#4 2#4 := by decide
theorem test_decode_shl : decodeWord 0x840E#16 = .shl 4#4 0#4 := by decide
theorem test_decode_sneReg : decodeWord 0x9120#16 = .sneReg 1#4 2#4 0#4 := by decide
theorem test_decode_ldI : decodeWord 0xA20E#16 = .ldI 0x20E#12 := by decide
theorem test_decode_jpV0 : decodeWord 0xBFFF#16 = .jpV0 0xFFF#12 := by decide
theorem test_decode_rnd : decodeWord 0xC30F#16 = .rnd 3#4 0x0F#8 := by decide
theorem test_decode_drw : decodeWord 0xDF15#16 = .drw 0xF#4 1#4 5#4 := by decide
theorem test_decode_skp : decodeWord 0xE59E#16 = .skp 5#4 := by decide
theorem test_decode_sknp : decodeWord 0xE5A1#16 = .sknp 5#4 := by decide
theorem test_decode_ldVxDT : decodeWord 0xF507#16 = .ldVxDT 5#4 := by decide
theorem test_decode_ldVxK : decodeWord 0xF30A#16 = .ldVxK 3#4 := by decide
theorem test_decode_ldDTVx : decodeWord 0xF015#16 = .ldDTVx 0#4 := by decide
theorem test_decode_ldSTVx : decodeWord 0xF118#16 = .ldSTVx 1#4 := by decide
theorem test_decode_addI : decodeWord 0xF21E#16 = .addI 2#4 := by decide
theorem test_decode_ldF : decodeWord 0xF029#16 = .ldF 0#4 := by decide
theorem test_decode_ldB : decodeWord 0xF033#16 = .ldB 0#4 := by decide
theorem test_decode_ldMemVx : decodeWord 0xF155#16 = .ldMemVx 1#4 := by decide
theorem test_decode_ldVxMem : decodeWord 0xF265#16 = .ldVxMem 2#4 := by decide
theorem test_undef_0000 : decodeWord 0x0000#16 = .undef 0x0000#16 := by decide
theorem test_undef_0123 : decodeWord 0x0123#16 = .undef 0x0123#16 := by decide
theorem test_undef_8018 : decodeWord 0x8018#16 = .undef 0x8018#16 := by decide
theorem test_undef_e09f : decodeWord 0xE09F#16 = .undef 0xE09F#16 := by decide
theorem test_undef_f075 : decodeWord 0xF075#16 = .undef 0xF075#16 := by decide
theorem test_decode_truncated : (match decode [0x12#8] with | .error e => e == .truncated 1 | .ok _ => false) = true := by decide
theorem test_decode_keeps_the_rest : (match decode [0x12#8, 0x34#8, 0x56#8] with
    | .ok r => r == (.jp 0x234#12, [0x56#8]) | .error _ => false) = true := by decide
theorem test_table_word_ret : decodeTableWord 16 0x00EE = some .ret := by decide
theorem test_encode_drw : encodeBytes (.drw 0xD#4 0x1#4 0x2#4) = [0xDD#8, 0x12#8] := by decide

/-! ## One step: control transfer (B1) -/

theorem test_jp_b1_1 : after (start 0x1234) (fun t => t.pc == 0x0234#16) = true := by decide
theorem test_call_b1_5 : after ((start 0x2300).setStack 14 (Vector.replicate 16 0#16))
    (fun t => t.sp == 15 && t.stack[15] == 0x0200#16 && t.pc == 0x0300#16) = true := by decide
theorem test_call_b1_6 : after ((start 0x2300).setStack 15 (Vector.replicate 16 0#16))
    (fun t => t.fault == some .stackOverflow && t.sp == 15 && t.pc == 0x0200#16) = true := by decide
theorem test_ret_b1_8 : after ((start 0x00EE).setStack 2 ((Vector.replicate 16 0#16).set 2 0x0456#16))
    (fun t => t.sp == 1 && t.pc == 0x0458#16 && t.stack[2] == 0x0456#16) = true := by decide
theorem test_ret_b1_7 : after (start 0x00EE) (fun t => t.fault == some .stackUnderflow && t.pc == 0x0200#16) = true := by decide
theorem test_jpV0_b1_10 : after (withV 0#4 0xFF#8 (start 0xBFFF)) (fun t => t.pc == 0x10FE#16) = true := by decide
theorem test_jpV0_b1_11 : after (withV 0#4 1#8 (withV 3#4 0x50#8 (start 0xB300))) (fun t => t.pc == 0x0301#16) = true := by decide
theorem test_fetch_b1_13 : after (State.reset.setPc 0x0FFF#16)
    (fun t => t.fault == some .memoryBounds && t.pc == 0x0FFF#16) = true := by decide
theorem test_fetch_b1_12 : after (withBytes 0xFFE [0x60#8, 0x01#8] (State.reset.setPc 0x0FFE#16))
    (fun t => t.getV 0#4 == 1#8 && t.pc == 0x1000#16) = true := by decide

/-! ## Skips (B2) -/

theorem test_seImm_b2_1 : after (withV 3#4 0x2A#8 (start 0x332A)) (fun t => t.pc == 0x0204#16) = true := by decide
theorem test_sneImm_b2_3 : after (withV 3#4 0x2A#8 (start 0x432A)) (fun t => t.pc == 0x0202#16) = true := by decide
theorem test_seReg_b2_7 : after (withV 1#4 7#8 (withV 2#4 7#8 (start 0x5127))) (fun t => t.pc == 0x0204#16) = true := by decide
theorem test_seReg_b2_6 : after (withV 1#4 7#8 (withV 2#4 8#8 (start 0x5120))) (fun t => t.pc == 0x0202#16) = true := by decide
theorem test_sneReg_b2_9 : after (withV 1#4 7#8 (withV 2#4 8#8 (start 0x9120))) (fun t => t.pc == 0x0204#16) = true := by decide
theorem test_skp_b2_15 : after (withV 5#4 0x1A#8 ((start 0xE59E).setKey 10#4 true)) (fun t => t.pc == 0x0204#16) = true := by decide
theorem test_skp_b2_12 : after (withV 5#4 0x0A#8 (start 0xE59E)) (fun t => t.pc == 0x0202#16) = true := by decide
theorem test_sknp_b2_13 : after (withV 5#4 0x0A#8 ((start 0xE5A1).setKey 10#4 true)) (fun t => t.pc == 0x0202#16) = true := by decide
theorem test_sknp_b2_14 : after (withV 5#4 0x0A#8 (start 0xE5A1)) (fun t => t.pc == 0x0204#16) = true := by decide

/-! ## Immediates and random (B3) -/

theorem test_ldImm_b3_1 : after (start 0x6A3E) (fun t => t.getV 0xA#4 == 0x3E#8 && t.pc == 0x0202#16) = true := by decide
theorem test_addImm_b3_2 : after (withV 0#4 0xFF#8 (start 0x7002)) (fun t => t.getV 0#4 == 1#8 && t.getV 0xF#4 == 0#8) = true := by
  decide
theorem test_addImm_b3_4 : after (withV 0xF#4 0xFE#8 (start 0x7F03)) (fun t => t.getV 0xF#4 == 1#8) = true := by decide
theorem test_ldI_b3_5 : after (start 0xAFFF) (fun t => t.i == 0x0FFF#16) = true := by decide
theorem test_rnd_counts_a_draw : after (start 0xC30F) (fun t => t.draws == 1 && t.pc == 0x0202#16) = true := by decide
/-- B3.7: with `kk = 0` the result is 0 whatever byte is drawn. -/
theorem test_rnd_b3_7 (s : State) : ∃ t, exec (.rnd 3#4 0#8) s = .next t ∧ t.getV 3#4 = 0#8 := ⟨_, rfl, by simp⟩

/-! ## The ALU (B4) -/

theorem test_ldReg_b4_41 : after (withV 0xF#4 7#8 (start 0x8EF0)) (fun t => t.getV 0xE#4 == 7#8 && t.getV 0xF#4 == 7#8) = true := by
  decide
theorem test_orReg_b4_42 : after (withV 0xF#4 1#8 (withV 1#4 0xF0#8 (withV 2#4 0x0F#8 (start 0x8121))))
    (fun t => t.getV 1#4 == 0xFF#8 && t.getV 0xF#4 == 1#8) = true := by decide
theorem test_andReg_b4_3 : after (withV 1#4 0xF0#8 (withV 2#4 0x3C#8 (start 0x8122))) (fun t => t.getV 1#4 == 0x30#8) = true := by
  decide
theorem test_xorReg_b4_4 : after (withV 1#4 0xF0#8 (withV 2#4 0x3C#8 (start 0x8123))) (fun t => t.getV 1#4 == 0xCC#8) = true := by
  decide
theorem test_addReg_b4_6 : after (withV 1#4 0xC8#8 (withV 2#4 0x64#8 (start 0x8124)))
    (fun t => t.getV 1#4 == 0x2C#8 && t.getV 0xF#4 == 1#8) = true := by decide
theorem test_addReg_b4_36 : after (withV 0xF#4 0xFF#8 (withV 1#4 1#8 (start 0x8F14))) (fun t => t.getV 0xF#4 == 1#8) = true := by
  decide
theorem test_sub_b4_15 : after (withV 1#4 5#8 (withV 2#4 7#8 (start 0x8125)))
    (fun t => t.getV 1#4 == 0xFE#8 && t.getV 0xF#4 == 0#8) = true := by decide
theorem test_sub_b4_16 : after (withV 1#4 5#8 (withV 2#4 5#8 (start 0x8125)))
    (fun t => t.getV 1#4 == 0#8 && t.getV 0xF#4 == 1#8) = true := by decide
theorem test_shr_b4_25 : after (withV 1#4 0xFE#8 (withV 2#4 1#8 (start 0x8126)))
    (fun t => t.getV 1#4 == 0x7F#8 && t.getV 0xF#4 == 0#8) = true := by decide
theorem test_shr_b4_38 : after (withV 0xF#4 3#8 (start 0x8F06)) (fun t => t.getV 0xF#4 == 1#8) = true := by decide
theorem test_subn_b4_26 : after (withV 1#4 5#8 (withV 2#4 7#8 (start 0x8127)))
    (fun t => t.getV 1#4 == 2#8 && t.getV 0xF#4 == 1#8) = true := by decide
theorem test_subn_b4_27 : after (withV 1#4 7#8 (withV 2#4 5#8 (start 0x8127)))
    (fun t => t.getV 1#4 == 0xFE#8 && t.getV 0xF#4 == 0#8) = true := by decide
theorem test_shl_b4_30 : after (withV 1#4 0x81#8 (start 0x812E)) (fun t => t.getV 1#4 == 2#8 && t.getV 0xF#4 == 1#8) = true := by
  decide
theorem test_shl_b4_39 : after (withV 0xF#4 0x81#8 (start 0x8F0E)) (fun t => t.getV 0xF#4 == 1#8) = true := by decide

/-! ## Index and memory (B5) -/

theorem test_addI_b5_2 : after (withV 2#4 1#8 ((start 0xF21E).setI 0x0FFF#16))
    (fun t => t.i == 0x1000#16 && t.getV 0xF#4 == 0#8) = true := by decide
theorem test_addI_b5_2b : after (withV 2#4 2#8 ((start 0xF21E).setI 0xFFFF#16)) (fun t => t.i == 1#16) = true := by decide
theorem test_ldF_b5_5 : after (withV 0#4 0x10#8 (start 0xF029)) (fun t => t.i == 0x0050#16) = true := by decide
theorem test_ldB_b5_11 : after (withV 0#4 123#8 ((start 0xF033).setI 0x0FFD#16))
    (fun t => t.bytesAt 0xFFD 3 == [1#8, 2#8, 3#8] && t.fault == none) = true := by decide
theorem test_ldB_b5_12 : after (withV 0#4 123#8 ((start 0xF033).setI 0x0FFE#16))
    (fun t => t.fault == some .memoryBounds && t.bytesAt 0xFFE 2 == [0#8, 0#8] && t.pc == 0x0200#16) = true := by decide
theorem test_ldMemVx_b5_13 : after (withV 0#4 0x11#8 (withV 1#4 0x22#8 (withV 2#4 0x33#8 ((start 0xF155).setI 0x400#16))))
    (fun t => t.bytesAt 0x400 3 == [0x11#8, 0x22#8, 0#8] && t.i == 0x400#16) = true := by decide
theorem test_ldMemVx_b5_16 : after ((start 0xFF55).setI 0x0FF1#16) (fun t => t.fault == some .memoryBounds) = true := by decide
theorem test_ldVxMem_b5_17 : after (withV 2#4 0x77#8 (withBytes 0x400 [0xAB#8, 0xCD#8, 0xEF#8] ((start 0xF165).setI 0x400#16)))
    (fun t => t.getV 0#4 == 0xAB#8 && t.getV 1#4 == 0xCD#8 && t.getV 2#4 == 0x77#8 && t.i == 0x400#16) = true := by decide
theorem test_ldVxMem_b5_18 : after (start 0xF465)
    (fun t => t.regsUpTo 4#4 == [0xF0#8, 0x90#8, 0x90#8, 0x90#8, 0xF0#8]) = true := by decide

/-! ## The framebuffer (B6) -/

theorem test_cls_b6_1 : after ((start 0x00E0).setFb ((State.reset.fb.toggle 5 5).fb))
    (fun t => !t.fb.lit 5 5 && t.pc == 0x0202#16) = true := by decide
theorem test_drw_b6_4 : after (withV 0#4 62#8 (withV 1#4 31#8 (withBytes 0x300 [0xC0#8] ((start 0xD011).setI 0x300#16))))
    (fun t => t.fb.lit 62 31 && t.fb.lit 63 31 && t.getV 0xF#4 == 0#8) = true := by decide
theorem test_drw_b6_18 : after (withBytes 0x300 [0xC0#8] (((start 0xD011).setI 0x300#16).setFb (State.reset.fb.toggle 0 0).fb))
    (fun t => !t.fb.lit 0 0 && t.fb.lit 1 0 && t.getV 0xF#4 == 1#8) = true := by decide

/-! ## Timers and keys (B7), unrecognized words (B8), reset and load (B9) -/

theorem test_ldVxDT_b7_1 : after ((start 0xF507).setDT 0x3C#8) (fun t => t.getV 5#4 == 0x3C#8 && t.dt == 0x3C#8) = true := by decide
theorem test_ldDTVx_b7_2 : after (withV 0#4 0x3C#8 (start 0xF015)) (fun t => t.dt == 0x3C#8 && t.st == 0#8) = true := by decide
theorem test_ldSTVx_b7_3 : after (withV 1#4 5#8 (start 0xF118)) (fun t => t.st == 5#8 && t.dt == 0#8) = true := by decide
theorem test_tick_b7_5 : (((State.reset.setDT 1#8).setST 1#8).timerTick.timerTick.dt,
    ((State.reset.setDT 1#8).setST 1#8).timerTick.timerTick.st) = (0#8, 0#8) := by decide
theorem test_ldVxK_b7_6 : after (start 0xF30A) (fun t => t == start 0xF30A) = true := by decide
theorem test_ldVxK_b7_8 : after (((start 0xF30A).setKey 9#4 true).setKey 4#4 true)
    (fun t => t.getV 3#4 == 4#8 && t.pc == 0x0202#16) = true := by decide
theorem test_halted_b7_10 : after ((start 0x6001).raise .stackOverflow) (fun t => t == (start 0x6001).raise .stackOverflow) = true := by
  decide
theorem test_undef_b8_4 : after (start 0x8018) (fun t => t == (start 0x8018).setPc 0x0202#16) = true := by decide
theorem test_event_b8_4 : stepEvent (start 0x8018) = some ⟨0x0200#16, 0x8018#16⟩ := by decide
theorem test_no_event_of_ret : stepEvent (start 0x00EE) = none := by decide
theorem test_reset_b9_1 : State.reset.bytesAt 0x4B 6 = [0xF0#8, 0x80#8, 0xF0#8, 0x80#8, 0x80#8, 0#8] := by decide
theorem test_empty_image_b9_3 : after (State.launch defaultFont []) (fun t => t == State.reset.setPc 0x0202#16) = true := by decide
/-- R50: loading one byte more than fits fails and changes nothing. -/
theorem test_too_large_image : (State.reset.loadImage (List.replicate 3585 1#8)) = (State.reset, false) := by
  rw [State.loadImage, if_pos (by rw [List.length_replicate]; decide)]
theorem test_load_opens_the_steps : ((Session.start defaultFont).host (.loadImage [0x12#8, 0x00#8])).map (fun z => (z.phase, z.loadOk))
    = some (.loaded, some true) := by decide
theorem test_no_second_load : (Session.mk State.reset .loaded (some true)).host (.loadImage []) = none
    ∧ (Session.mk State.reset .stepping (some true)).host (.loadImage []) = none := by decide
/-- `load_ok` is the result of the last load, and no value before the first (R29; log 23). -/
theorem test_loadOk_is_kept : (Session.start defaultFont).loadOk = none
    ∧ ((Session.mk State.reset .stepping (some true)).host .reset).map (fun z => (z.phase, z.loadOk))
      = some (.afterReset, some true) := by decide
theorem test_fault_codes : [State.reset.faultOut, (State.reset.raise .stackOverflow).faultOut,
    (State.reset.raise .stackUnderflow).faultOut, (State.reset.raise .memoryBounds).faultOut] = [0#2, 1#2, 2#2, 3#2] := by decide

/-! ## The memory keeps its canonical form -/

/-- Writing what an unlisted byte reads as removes the cell, so that equal memories are equal data. -/
theorem test_write_back_removes_the_cell : Memory.write defaultFont (Memory.write defaultFont [] 0x300 7#8) 0x300 0#8 = [] := by
  decide
theorem test_glyph_write_back : Memory.write defaultFont (Memory.write defaultFont [] 0 7#8) 0 0xF0#8 = [] := by
  decide
/-- Another `FONT` (R48): its bytes stand at 0 to 79 after `Reset`, and zeros above. -/
theorem test_other_font : (State.resetWith (Vector.replicate 80 7#8)).bytesAt 0x4E 4 = [7#8, 7#8, 0#8, 0#8] := by decide

/-! ## Witnesses: a state and operands that meet the hypotheses of each statement, at a boundary of each clause -/

theorem witness_decode_of_encode : (Instr.undef 0xFFFF#16).wf = true ∧ (Instr.drw 0xF#4 0xF#4 0xF#4).wf = true := by decide
theorem witness_row : rowOf (decodeWord 0x8124#16) = some ⟨0xF00F#16, 0x8004#16⟩ ∧ (⟨0xF00F#16, 0x8004#16⟩ : OpcodeRow) ∈ opcodeRows := by
  decide
theorem witness_load_image : (withBytes 0x300 [9#8] State.reset).memWf ∧ (List.replicate 3584 1#8).length ≤ 3584
    ∧ 3584 < (List.replicate 3585 1#8).length := by
  refine ⟨by decide, by rw [List.length_replicate], by rw [List.length_replicate]; decide⟩
theorem witness_only_reset_clears : (State.reset.raise .memoryBounds).fault = some .memoryBounds ∧ HostAction.timerTick ≠ .reset := by
  decide
theorem witness_step_of_a_halted_core : step (State.reset.raise .memoryBounds) = .next (State.reset.raise .memoryBounds) := rfl
theorem witness_canonical_memories : Memory.wf defaultFont [(0x300, 1#8)]
    ∧ Memory.wf defaultFont (Memory.write defaultFont [] 0x300 1#8)
    ∧ ∀ a, Memory.read defaultFont [(0x300, 1#8)] a = Memory.read defaultFont (Memory.write defaultFont [] 0x300 1#8) a :=
  ⟨by decide, by decide, fun _ => rfl⟩
theorem witness_step_runs : (start 0x1234).running ∧ (start 0x1234).pc.toNat ≤ 4094
    ∧ decode [(start 0x1234).byteAt (start 0x1234).pc.toNat, (start 0x1234).byteAt ((start 0x1234).pc.toNat + 1)]
      = .ok (.jp 0x234#12, []) :=
  ⟨rfl, by decide, rfl⟩
theorem witness_step_runs_at_4094 : (State.reset.setPc 4094#16).running ∧ (State.reset.setPc 4094#16).pc.toNat ≤ 4094 :=
  ⟨rfl, by decide⟩
theorem witness_fetch_out_of_bounds : (State.reset.setPc 4095#16).running ∧ 4094 < (State.reset.setPc 4095#16).pc.toNat :=
  ⟨rfl, by decide⟩
theorem witness_halted : ¬ (State.reset.raise .stackOverflow).running := by simp [State.running]
theorem witness_running : State.reset.running := rfl
theorem witness_event : (start 0x8018).running ∧ (start 0x8018).current = some (.undef 0x8018#16) := ⟨rfl, by decide⟩
theorem witness_overflow : (∃ nnn, ((start 0x2300).setStack 15 (Vector.replicate 16 0#16)).current = some (.call nnn))
    ∧ ((start 0x2300).setStack 15 (Vector.replicate 16 0#16)).sp.val = 15 :=
  ⟨⟨0x300#12, by decide⟩, rfl⟩
theorem witness_underflow : (start 0x00EE).current = some .ret ∧ (start 0x00EE).sp.val = 0 := by decide
theorem witness_held : (start 0xF30A).current = some (.ldVxK 3#4) ∧ ∀ k, (start 0xF30A).keyHeld k = false := by decide
theorem witness_invariant : (start 0x2300).Inv := ⟨by decide, by decide, by decide, by decide⟩
theorem witness_invariant_with_a_live_slot : ((start 0x00EE).setStack 1 ((Vector.replicate 16 0#16).set 1 4094#16)).Inv :=
  ⟨by decide, by decide, by decide, by decide⟩
theorem witness_step_next : step (start 0x1234) = .next ((start 0x1234).setPc 0x234#16) := rfl
theorem witness_reachable : Reach (State.reset.setKey 3#4 true) := Reach.host (.setKey 3#4 true) (Reach.reset defaultFont)
theorem witness_session : Session.Reachable ⟨State.launch defaultFont [], .loaded, some true⟩ :=
  Session.Reachable.host (.loadImage []) (Session.Reachable.start defaultFont) rfl
theorem witness_session_that_stepped : ∃ t, Session.Reachable ⟨t, .stepping, some true⟩ :=
  ⟨_, Session.Reachable.step witness_session rfl rfl⟩
theorem witness_session_before_load : Session.Reachable (Session.start defaultFont) ∧ ∃ z', (Session.start defaultFont).host (.loadImage [1#8]) = some z' :=
  ⟨Session.Reachable.start defaultFont, _, rfl⟩
/-- The program `1200` runs to its end at once, whichever byte is drawn first. -/
theorem witness_clean_run (f : Font) (d : Nat) : CleanRun f [0x12#8, 0x00#8] ((State.launch f [0x12#8, 0x00#8]).withDraws d) :=
  ⟨Run.launch d (by decide), rfl⟩
theorem witness_run_ends : RunEnds defaultFont [0x12#8, 0x00#8] ((State.launch defaultFont [0x12#8, 0x00#8]).withDraws 0) :=
  ⟨Run.launch 0 (by decide), rfl, 0x200#12, by decide, rfl⟩
theorem witness_waiting : (start 0xF30A).waiting := ⟨rfl, ⟨3#4, by decide⟩, by decide⟩
theorem witness_ended : (start 0x1200).ended := ⟨rfl, 0x200#12, by decide, rfl⟩
theorem witness_jpV0_fixed : (start 0xB200).running ∧ (start 0xB200).current = some (.jpV0 0x200#12)
    ∧ (0x200#12).toNat + ((start 0xB200).getV 0#4).toNat = (start 0xB200).pc.toNat := ⟨rfl, by decide, by decide⟩
/-- A running core that is at no fixed point. -/
theorem witness_not_ended : ¬ (start 0x1202).ended := by
  rintro ⟨-, n, hc, hn⟩
  have : (start 0x1202).current = some (.jp 0x202#12) := by decide
  rw [this] at hc
  cases hc
  exact absurd hn (by decide)
theorem witness_exec_next : exec (.jp 0x234#12) State.reset = .next (State.reset.setPc 0x234#16) := rfl
theorem witness_flag_writer : exec (.shr 1#4 2#4) State.reset = .next ((State.reset.setV 1#4 0#8).setV flagReg 0#8).advance
    ∧ (Instr.shr 1#4 2#4).writesFlag = true ∧ State.reset.running := ⟨rfl, rfl, rfl⟩
theorem witness_dead_slots : ((start 0x00EE).setStack 1 ((Vector.replicate 16 0#16).set 1 0x204#16)).sameLiveSlots
    (((Vector.replicate 16 7#16).set 1 0x204#16)) := by unfold State.sameLiveSlots; decide
theorem witness_ret_clauses : (State.reset.setStack 1 (Vector.replicate 16 0#16)).sp.val ≠ 0 ∧ State.reset.sp.val = 0 := by decide
theorem witness_call_clauses : (State.reset.setStack 14 (Vector.replicate 16 0#16)).sp.val ≠ 15
    ∧ (State.reset.setStack 15 (Vector.replicate 16 0#16)).sp.val = 15
    ∧ (State.reset.setStack 14 (Vector.replicate 16 0#16)).sp.val < 15 := by decide
theorem witness_self_jump : (start 0x1200).running ∧ (start 0x1200).pc.toNat ≤ 4094 ∧ (0x200#12).toNat = (start 0x1200).pc.toNat
    ∧ (start 0x1200).byteAt (start 0x1200).pc.toNat = (encode (.jp 0x200#12)).extractLsb' 8 8
    ∧ (start 0x1200).byteAt ((start 0x1200).pc.toNat + 1) = (encode (.jp 0x200#12)).extractLsb' 0 8 :=
  ⟨rfl, by decide, by decide, by decide, by decide⟩
theorem witness_key_named : (10#4).toNat = ((withV 5#4 0x1A#8 State.reset).getV 5#4).toNat % 16 := by decide
theorem witness_digits_in_bounds : (State.reset.setI 4093#16).memWf ∧ (State.reset.setI 4093#16).i.toNat + 2 ≤ 4095 := by decide
theorem witness_registers_in_bounds : (State.reset.setI 4080#16).memWf
    ∧ (State.reset.setI 4080#16).i.toNat + (0xF#4).toNat ≤ 4095 := by decide
theorem witness_digits_out_of_bounds : 4095 < (State.reset.setI 4094#16).i.toNat + 2 := by decide
theorem witness_registers_out_of_bounds : 4095 < (State.reset.setI 4081#16).i.toNat + (0xF#4).toNat := by decide
theorem witness_draw_out_of_bounds : 0 < (1#4).toNat ∧ 4095 < (State.reset.setI 4096#16).i.toNat + (1#4).toNat - 1 := by decide
theorem witness_draw_in_bounds : ((State.reset.setI 4081#16).i.toNat + (0xF#4).toNat - 1 ≤ 4095) ∧ (0#4).toNat = 0 := by decide
/-- The state B6.18 draws on. -/
def collidingDraw : State :=
  withBytes 0x300 [0xC0#8] ((State.reset.setI 0x300#16).setFb (State.reset.fb.toggle 0 0).fb)
theorem witness_collision : ∃ px py, px ≤ 63 ∧ py ≤ 31 ∧ collidingDraw.fb.lit px py = true
    ∧ collidingDraw.spriteSets 0#4 1#4 1#4 px py = true := ⟨0, 0, by decide⟩
/-- With no pixel lit there is no collision. -/
theorem witness_no_collision : ¬ ∃ px py, px ≤ 63 ∧ py ≤ 31 ∧ State.reset.fb.lit px py = true
    ∧ State.reset.spriteSets 0#4 1#4 1#4 px py = true := by
  rintro ⟨px, py, -, -, h, -⟩
  have : State.reset.fb.lit px py = false := lit_blankFb px py
  simp [this] at h
theorem witness_draw_twice : (0#4 : Nibble) ≠ flagReg ∧ (1#4 : Nibble) ≠ flagReg
    ∧ collidingDraw.i.toNat + (1#4).toNat - 1 ≤ 4095 := by decide
theorem witness_store_then_load : ∃ t, exec (.ldMemVx 0xF#4) (State.reset.setI 4080#16) = .next t
    ∧ (∀ a, (t.setV 0#4 9#8).byteAt a = t.byteAt a) ∧ (t.setV 0#4 9#8).i = t.i := ⟨_, rfl, fun _ => rfl, rfl⟩
/-- The same where the store lies in the glyph table. -/
theorem witness_store_then_load_glyphs : State.reset.memWf ∧ ∃ t, exec (.ldMemVx 0xF#4) State.reset = .next t
    ∧ (∀ a, (t.setV 0#4 9#8).byteAt a = t.byteAt a) ∧ (t.setV 0#4 9#8).i = t.i := ⟨by decide, _, rfl, fun _ => rfl, rfl⟩
/-- A store over both bytes of the next word, over its second byte alone, and one that ends below it. -/
theorem witness_store_is_fetched : State.reset.memWf ∧ State.reset.pc.toNat + 3 ≤ 4095
    ∧ (State.reset.setI 0x202#16).byteAfterRegs 1#4 0x203 = 0
    ∧ ((withV 0#4 0x6A#8 State.reset).setI 0x203#16).byteAfterRegs 0#4 0x203 = 0x6A
    ∧ ((withV 0#4 123#8 State.reset).setI 0x203#16).byteAfterDigits 0#4 0x203 = 1
    ∧ ((withV 0#4 123#8 State.reset).setI 0x200#16).byteAfterDigits 0#4 0x202 = 3
    ∧ ((withV 0#4 123#8 State.reset).setI 0x1FF#16).byteAfterDigits 0#4 0x202 = 0 := by decide
theorem witness_no_key_held : ∀ k, State.reset.keyHeld k = false := by decide
theorem witness_lowest_key : (State.reset.setKey 7#4 true).keyHeld 7#4 = true
    ∧ ∀ j : Nibble, j.toNat < (7#4).toNat → (State.reset.setKey 7#4 true).keyHeld j = false := by decide
theorem witness_unrecognized : unrecognized 0x0000#16 = true := by decide

end Sys2Proof.Tests
end

section
/-! The load of a program image (20_memory.md R50). -/

namespace Sys2Proof.Machine

theorem keeps_setMem (s : State) (m : Memory) : KeepsExcept [.mem] s (s.setMem m) := by
  intro p hp; cases p <;> simp_all [Part.kept]

/-- Byte `k` of a run of stores reads back at offset `k`. -/
theorem State.byteAt_stored_add {s : State} (hm : s.memWf) (a : Nat) {bs : List Byte} {k : Nat} (hk : k < bs.length) :
    (s.setMem (s.memWith a bs)).byteAt (a + k) = bs[k] := by
  rw [State.byteAt_stored hm (Nat.le_add_right a k) (by omega)]
  simp only [Nat.add_sub_cancel_left]

/-- An image that fits is stored from `Config.progBase` up. -/
theorem State.loadImage_fits (s : State) {bytes : List Byte} (h : bytes.length ≤ Config.maxImage) :
    s.loadImage bytes = (s.setMem (s.memWith Config.progBase bytes), true) :=
  if_neg (Nat.not_lt.2 h)

/-- Settles O7: an image that fits is one run of stores, read back by the laws of `memWith`; a larger one is rejected whole. -/
theorem loadImageCopiesOrRejects : Obligations.LoadImageCopiesOrRejects := by
  intro s bytes hm
  refine ⟨fun hfits => ?_, fun hlarge => ?_⟩
  · rw [State.loadImage_fits s hfits]
    exact ⟨rfl, fun _ hk => State.byteAt_stored_add hm _ hk, fun _ ha => State.byteAt_not_stored hm ha, keeps_setMem s _⟩
  · have hrejected : (s.loadImage bytes).2 = false :=
      (State.loadImage_ok s bytes).trans (decide_eq_false (Nat.not_le.2 hlarge))
    exact ⟨hrejected, State.loadImage_rejected hrejected⟩

end Sys2Proof.Machine
end

section
/-! The jumps `1nnn` and `Bnnn` (40_flow.md R68, R70). -/

namespace Sys2Proof

theorem decodeWord_jp (nnn : Addr12) : decodeWord (0x1#4 ++ nnn) = .jp nnn := by
  rw [append_eq_formatA]
  simp [decodeWord]

theorem decodeWord_jpV0 (nnn : Addr12) : decodeWord (0xB#4 ++ nnn) = .jpV0 nnn := by
  rw [append_eq_formatA]
  simp [decodeWord]

end Sys2Proof

namespace Sys2Proof.Machine

theorem exec_jp (nnn : Addr12) (s : State) : exec (.jp nnn) s = .next (s.setPc (zextAddr nnn)) := rfl

theorem exec_jpV0 (nnn : Addr12) (s : State) :
    exec (.jpV0 nnn) s = .next (s.setPc (zextAddr nnn + zextByte (s.getV 0#4))) := rfl

/-- The target of `Bnnn` is at most `0xFFF + 0xFF`, so the 16-bit sum does not wrap (R70). -/
theorem zextAddr_add_zextByte_toNat (nnn : Addr12) (b : Byte) :
    (zextAddr nnn + zextByte b).toNat = nnn.toNat + b.toNat := by
  have hfits : nnn.toNat + b.toNat < 2 ^ 16 := by
    have := nnn.isLt
    have := b.isLt
    omega
  rw [BitVec.toNat_add, zextAddr_toNat, zextByte_toNat, Nat.mod_eq_of_lt hfits]

/-- Settles O30: the instruction writes `pc` alone, with `nnn` zero-extended. -/
theorem jumpSetsThePc : Obligations.JumpSetsThePc := fun s nnn =>
  ⟨decodeWord_jp nnn, _, exec_jp nnn s, zextAddr_toNat nnn, keeps_setPc s _⟩

/-- Settles O32: the instruction writes `pc` alone, and the sum it writes does not wrap. -/
theorem jumpWithOffsetAddsRegisterZero : Obligations.JumpWithOffsetAddsRegisterZero := fun s nnn =>
  ⟨decodeWord_jpV0 nnn, _, exec_jpV0 nnn s, zextAddr_add_zextByte_toNat nnn (s.getV 0#4), keeps_setPc s _⟩

end Sys2Proof.Machine
end

section
/-! The skips on an immediate `3xkk` and `4xkk` (41_skip.md R72 to R74). -/

namespace Sys2Proof

theorem decodeWord_seImm (x : Nibble) (kk : Byte) : decodeWord (0x3#4 ++ x ++ kk) = .seImm x kk := by
  rw [append_eq_formatK]
  simp [decodeWord]

theorem decodeWord_sneImm (x : Nibble) (kk : Byte) : decodeWord (0x4#4 ++ x ++ kk) = .sneImm x kk := by
  rw [append_eq_formatK]
  simp [decodeWord]

end Sys2Proof

namespace Sys2Proof.Machine

theorem exec_seImm (x : Nibble) (kk : Byte) (s : State) :
    exec (.seImm x kk) s = .next (s.skipIf (s.getV x == kk)) := rfl

theorem exec_sneImm (x : Nibble) (kk : Byte) (s : State) :
    exec (.sneImm x kk) s = .next (s.skipIf (s.getV x != kk)) := rfl

theorem keeps_skipIf (s : State) (c : Bool) : KeepsExcept [.pc] s (s.skipIf c) := keeps_setPc s _

/-- A skip on equal bytes, as R73 and R75 say it: by the values of the bytes. -/
theorem State.skipIf_beq_pc (s : State) (a b : Byte) :
    (s.skipIf (a == b)).pc = if a.toNat = b.toNat then s.pc + 4 else s.pc + 2 := by
  by_cases h : a = b
  · simp [h]
  · simp [h, BitVec.toNat_inj]

/-- A skip on different bytes, as R74 and R76 say it: by the values of the bytes. -/
theorem State.skipIf_bne_pc (s : State) (a b : Byte) :
    (s.skipIf (a != b)).pc = if a.toNat = b.toNat then s.pc + 2 else s.pc + 4 := by
  by_cases h : a = b
  · simp [h]
  · simp [h, BitVec.toNat_inj]

/-- Settles O35: each instruction is one `skipIf`, which writes `pc` alone, on the bytes `V[x]` and `kk`. -/
theorem skipsOnAnImmediate : Obligations.SkipsOnAnImmediate := fun s x kk =>
  ⟨decodeWord_seImm x kk, decodeWord_sneImm x kk,
    ⟨_, exec_seImm x kk s, s.skipIf_beq_pc (s.getV x) kk, keeps_skipIf s _⟩,
    ⟨_, exec_sneImm x kk s, s.skipIf_bne_pc (s.getV x) kk, keeps_skipIf s _⟩⟩

end Sys2Proof.Machine
end

section
/-! The loads of an immediate `6xkk` and `Annn`, and add immediate `7xkk` (42_load_imm.md R79 to R81). -/

namespace Sys2Proof

theorem decodeWord_ldImm (x : Nibble) (kk : Byte) : decodeWord (0x6#4 ++ x ++ kk) = .ldImm x kk := by
  rw [append_eq_formatK]
  simp [decodeWord]

theorem decodeWord_addImm (x : Nibble) (kk : Byte) : decodeWord (0x7#4 ++ x ++ kk) = .addImm x kk := by
  rw [append_eq_formatK]
  simp [decodeWord]

theorem decodeWord_ldI (nnn : Addr12) : decodeWord (0xA#4 ++ nnn) = .ldI nnn := by
  rw [append_eq_formatA]
  simp [decodeWord]

end Sys2Proof

namespace Sys2Proof.Machine

theorem exec_ldImm (x : Nibble) (kk : Byte) (s : State) : exec (.ldImm x kk) s = .next (s.setV x kk).advance := rfl

theorem exec_addImm (x : Nibble) (kk : Byte) (s : State) :
    exec (.addImm x kk) s = .next (s.setV x (s.getV x + kk)).advance := rfl

theorem exec_ldI (nnn : Addr12) (s : State) : exec (.ldI nnn) s = .next (s.setI (zextAddr nnn)).advance := rfl

theorem keeps_setI (s : State) (a : Word) : KeepsExcept [.index] s (s.setI a) := by
  intro p hp; cases p <;> simp_all [Part.kept]

/-- The default end of an instruction adds `pc` to the pieces of state it writes (R17). -/
theorem KeepsExcept.advance {ps : List Part} {s t : State} (h : KeepsExcept ps s t) :
    KeepsExcept (ps ++ [.pc]) s t.advance :=
  (h.mono fun _ hp => List.mem_append_left _ hp).trans
    ((keeps_advance t).mono fun _ hp => List.mem_append_right _ hp)

theorem State.getV_setV_advance_same (s : State) (x : Nibble) (b : Byte) : (s.setV x b).advance.getV x = b := by
  rw [State.getV_advance, State.getV_setV_same]

/-- Settles O38: the instruction writes the one register `x` and advances. -/
theorem loadImmediateSetsTheRegister : Obligations.LoadImmediateSetsTheRegister := fun s x kk =>
  ⟨decodeWord_ldImm x kk, _, exec_ldImm x kk s, s.getV_setV_advance_same x kk, rfl,
    keepsRegs_setV s x kk, (keeps_setV s x kk).advance⟩

/-- Settles O39: the instruction writes the one register `x`, with the 8-bit sum, which is the sum modulo 256. -/
theorem addImmediateWrapsWithoutAFlag : Obligations.AddImmediateWrapsWithoutAFlag := by
  intro s x kk
  refine ⟨decodeWord_addImm x kk, _, exec_addImm x kk s, ?_, rfl, keepsRegs_setV s x _, (keeps_setV s x _).advance⟩
  rw [State.getV_setV_advance_same, BitVec.toNat_add]

/-- Settles O40: the instruction writes `I` alone, with `nnn` zero-extended, and advances. -/
theorem loadIndexSetsI : Obligations.LoadIndexSetsI := fun s nnn =>
  ⟨decodeWord_ldI nnn, _, exec_ldI nnn s, zextAddr_toNat nnn, rfl, (keeps_setI s _).advance⟩

end Sys2Proof.Machine
end

section
/-! The clear of the framebuffer `00E0` (45_draw.md R103). -/

namespace Sys2Proof

theorem decodeWord_cls : decodeWord 0x00E0#16 = .cls := by decide

end Sys2Proof

namespace Sys2Proof.Machine

theorem exec_cls (s : State) : exec .cls s = .next (s.setFb blankFb).advance := rfl

theorem keeps_setFb (s : State) (f : Framebuffer) : KeepsExcept [.fb] s (s.setFb f) := by
  intro p hp; cases p <;> simp_all [Part.kept]

/-- Settles O54: the instruction writes the framebuffer alone, with the blank one, and advances. -/
theorem clearUnlightsEveryPixel : Obligations.ClearUnlightsEveryPixel := fun s =>
  ⟨decodeWord_cls, _, exec_cls s, lit_blankFb, rfl, (keeps_setFb s blankFb).advance⟩

end Sys2Proof.Machine
end

section
/-! The reads and writes of the timers `Fx07`, `Fx15` and `Fx18` (46_timer_key.md R109, R111, R112). -/

namespace Sys2Proof

theorem decodeWord_ldVxDT (x : Nibble) : decodeWord (0xF#4 ++ x ++ 0x07#8) = .ldVxDT x := by
  rw [append_eq_formatK]
  simp [decodeWord, decodeFamF]

theorem decodeWord_ldDTVx (x : Nibble) : decodeWord (0xF#4 ++ x ++ 0x15#8) = .ldDTVx x := by
  rw [append_eq_formatK]
  simp [decodeWord, decodeFamF]

theorem decodeWord_ldSTVx (x : Nibble) : decodeWord (0xF#4 ++ x ++ 0x18#8) = .ldSTVx x := by
  rw [append_eq_formatK]
  simp [decodeWord, decodeFamF]

end Sys2Proof

namespace Sys2Proof.Machine

theorem exec_ldVxDT (x : Nibble) (s : State) : exec (.ldVxDT x) s = .next (s.setV x s.dt).advance := rfl

theorem exec_ldDTVx (x : Nibble) (s : State) : exec (.ldDTVx x) s = .next (s.setDT (s.getV x)).advance := rfl

theorem exec_ldSTVx (x : Nibble) (s : State) : exec (.ldSTVx x) s = .next (s.setST (s.getV x)).advance := rfl

theorem keeps_setDT (s : State) (b : Byte) : KeepsExcept [.dt] s (s.setDT b) := by
  intro p hp; cases p <;> simp_all [Part.kept]

theorem keeps_setST (s : State) (b : Byte) : KeepsExcept [.st] s (s.setST b) := by
  intro p hp; cases p <;> simp_all [Part.kept]

/-- Settles O57: the instruction writes the one register `x`, with `DT`, and advances. -/
theorem delayTimerIsRead : Obligations.DelayTimerIsRead := fun s x =>
  ⟨decodeWord_ldVxDT x, _, exec_ldVxDT x s, s.getV_setV_advance_same x s.dt, rfl,
    keepsRegs_setV s x s.dt, (keeps_setV s x s.dt).advance⟩

/-- Settles O58: each instruction writes its one timer, with `V[x]`, and advances. -/
theorem timersAreWritten : Obligations.TimersAreWritten := fun s x =>
  ⟨decodeWord_ldDTVx x, decodeWord_ldSTVx x,
    ⟨_, exec_ldDTVx x s, rfl, rfl, (keeps_setDT s _).advance⟩,
    ⟨_, exec_ldSTVx x s, rfl, rfl, (keeps_setST s _).advance⟩⟩

end Sys2Proof.Machine
end

section
/-! The decoder against the encoder, the opcode table and the list of unrecognized words (30_encoding.md R53 to R61). -/

namespace Sys2Proof

/-! ## Unrecognized words -/

/-- The families of R60, in the decoder's own fields. -/
theorem unrecognized_iff (op : Word) : unrecognized op = true ↔
    (famOf op = 0x0#4 ∧ op ≠ 0x00E0#16 ∧ op ≠ 0x00EE#16)
    ∨ (famOf op = 0x8#4 ∧ nOf op ∈ [0x8#4, 0x9#4, 0xA#4, 0xB#4, 0xC#4, 0xD#4, 0xF#4])
    ∨ (famOf op = 0xE#4 ∧ kkOf op ∉ [0x9E#8, 0xA1#8])
    ∨ (famOf op = 0xF#4 ∧ kkOf op ∉ [0x07#8, 0x0A#8, 0x15#8, 0x18#8, 0x1E#8, 0x29#8, 0x33#8, 0x55#8, 0x65#8]) := by
  simp only [unrecognized, famOf, nOf, kkOf, Bool.or_eq_true, Bool.and_eq_true, beq_iff_eq, bne_iff_ne,
    List.contains_iff_mem, Bool.not_eq_true', and_assoc, or_assoc, ← Bool.not_eq_true]

theorem decodeFam8_of_unlisted {op : Word}
    (h : nOf op ∈ [0x8#4, 0x9#4, 0xA#4, 0xB#4, 0xC#4, 0xD#4, 0xF#4]) : decodeFam8 op = .undef op := by
  unfold decodeFam8
  split <;> simp_all

theorem decodeFamE_of_unlisted {op : Word} (h : kkOf op ∉ [0x9E#8, 0xA1#8]) : decodeFamE op = .undef op := by
  unfold decodeFamE
  split <;> simp_all

theorem decodeFamF_of_unlisted {op : Word}
    (h : kkOf op ∉ [0x07#8, 0x0A#8, 0x15#8, 0x18#8, 0x1E#8, 0x29#8, 0x33#8, 0x55#8, 0x65#8]) :
    decodeFamF op = .undef op := by
  unfold decodeFamF
  split <;> simp_all

theorem decodeWord_of_unrecognized {op : Word} (h : unrecognized op = true) : decodeWord op = .undef op := by
  obtain ⟨hfam, hcls, hret⟩ | ⟨hfam, hn⟩ | ⟨hfam, hkk⟩ | ⟨hfam, hkk⟩ := (unrecognized_iff op).1 h
  · simp [decodeWord, hfam, decodeFam0, hcls, hret]
  · simp [decodeWord, hfam, decodeFam8_of_unlisted hn]
  · simp [decodeWord, hfam, decodeFamE_of_unlisted hkk]
  · simp [decodeWord, hfam, decodeFamF_of_unlisted hkk]

/-! ## Decoding an encoding -/

/-- The decoder inverts the encoder: its fields are those of the format, and the family's key selects the constructor. -/
theorem decodeWord_encode {i : Instr} (h : i.wf = true) : decodeWord (encode i) = i := by
  cases i with
  | undef op => exact decodeWord_of_unrecognized h
  | cls | ret => decide
  | _ => simp [encode, decodeWord, decodeFam8, decodeFamE, decodeFamF]

/-- The two bytes of a word, high byte first, decode to its instruction (R41, R53). -/
theorem decode_bytes (op : Word) (rest : List Byte) :
    decode (op.extractLsb' 8 8 :: op.extractLsb' 0 8 :: rest) = .ok (decodeWord op, rest) := by
  rw [decode, wordOfBytes_bytes]

/-- Settles O2: the two bytes give the word back, and the decoder inverts the encoder. -/
theorem decodeOfEncodeIsTheInstruction : Obligations.DecodeOfEncodeIsTheInstruction := by
  intro i rest h
  rw [encodeBytes, List.cons_append, List.singleton_append, decode_bytes, decodeWord_encode h]

/-! ## Encoding a decoded word -/

/-- `i` stands for the word `op`: it is well-formed and its word is `op`. -/
def Instr.Denotes (i : Instr) (op : Word) : Prop := i.wf = true ∧ encode i = op

/-- The last family is what the first fifteen leave. -/
theorem nibble_last : ∀ f : Nibble,
    f ∉ [0x0#4, 0x1#4, 0x2#4, 0x3#4, 0x4#4, 0x5#4, 0x6#4, 0x7#4, 0x8#4, 0x9#4, 0xA#4, 0xB#4, 0xC#4, 0xD#4, 0xE#4] →
      f = 0xF#4 := by decide

/-- The nine keys of family 0x8 leave the seven low nibbles of R60. -/
theorem nibble_unlisted8 : ∀ n : Nibble,
    n ∉ [0x0#4, 0x1#4, 0x2#4, 0x3#4, 0x4#4, 0x5#4, 0x6#4, 0x7#4, 0xE#4] →
      n ∈ [0x8#4, 0x9#4, 0xA#4, 0xB#4, 0xC#4, 0xD#4, 0xF#4] := by decide

/-- A word of format `A` whose family is known is its family before its address. -/
theorem formatA_fields_of {op : Word} {fam : Nibble} (hf : famOf op = fam) : formatA fam (nnnOf op) = op := by
  rw [← hf, formatA_fields]

/-- A word of format `R` whose keys are known is its keys around its fields. -/
theorem formatR_fields_of {op : Word} {fam n : Nibble} (hf : famOf op = fam) (hn : nOf op = n) :
    formatR fam (xOf op) (yOf op) n = op := by
  rw [← hf, ← hn, formatR_fields]

/-- A word of format `X` whose keys are known is its keys around its fields. -/
theorem formatK_fields_of {op : Word} {fam : Nibble} {kk : Byte} (hf : famOf op = fam) (hk : kkOf op = kk) :
    formatK fam (xOf op) kk = op := by
  rw [← hf, ← hk, formatK_fields]

theorem decodeFam0_denotes {op : Word} (hf : famOf op = 0x0#4) : (decodeFam0 op).Denotes op := by
  unfold decodeFam0
  split_ifs with hcls hret
  · exact ⟨rfl, hcls.symm⟩
  · exact ⟨rfl, hret.symm⟩
  · exact ⟨(unrecognized_iff op).2 (.inl ⟨hf, hcls, hret⟩), rfl⟩

theorem decodeFam8_denotes {op : Word} (hf : famOf op = 0x8#4) : (decodeFam8 op).Denotes op := by
  by_cases hn : nOf op ∈ [0x8#4, 0x9#4, 0xA#4, 0xB#4, 0xC#4, 0xD#4, 0xF#4]
  · rw [decodeFam8_of_unlisted hn]
    exact ⟨(unrecognized_iff op).2 (.inr (.inl ⟨hf, hn⟩)), rfl⟩
  · unfold decodeFam8
    split
    case h_10 => exact absurd (nibble_unlisted8 _ (by simp_all)) hn
    all_goals exact ⟨rfl, formatR_fields_of hf ‹_›⟩

theorem decodeFamE_denotes {op : Word} (hf : famOf op = 0xE#4) : (decodeFamE op).Denotes op := by
  by_cases hk : kkOf op ∉ [0x9E#8, 0xA1#8]
  · rw [decodeFamE_of_unlisted hk]
    exact ⟨(unrecognized_iff op).2 (.inr (.inr (.inl ⟨hf, hk⟩))), rfl⟩
  · unfold decodeFamE
    split
    case h_3 => simp_all
    all_goals exact ⟨rfl, formatK_fields_of hf ‹_›⟩

theorem decodeFamF_denotes {op : Word} (hf : famOf op = 0xF#4) : (decodeFamF op).Denotes op := by
  by_cases hk : kkOf op ∉ [0x07#8, 0x0A#8, 0x15#8, 0x18#8, 0x1E#8, 0x29#8, 0x33#8, 0x55#8, 0x65#8]
  · rw [decodeFamF_of_unlisted hk]
    exact ⟨(unrecognized_iff op).2 (.inr (.inr (.inr ⟨hf, hk⟩))), rfl⟩
  · unfold decodeFamF
    split
    case h_10 => simp_all
    all_goals exact ⟨rfl, formatK_fields_of hf ‹_›⟩

/-- The decoder loses no bit of a word: the fields it does not examine are kept (log 15). -/
theorem decodeWord_denotes (op : Word) : (decodeWord op).Denotes op := by
  unfold decodeWord
  split
  case h_1 hf => exact decodeFam0_denotes hf
  case h_9 hf => exact decodeFam8_denotes hf
  case h_15 hf => exact decodeFamE_denotes hf
  case h_16 => exact decodeFamF_denotes (nibble_last _ (by simp_all))
  case h_2 hf | h_3 hf | h_11 hf | h_12 hf => exact ⟨rfl, formatA_fields_of hf⟩
  case h_4 hf | h_5 hf | h_7 hf | h_8 hf | h_13 hf => exact ⟨rfl, formatK_fields_of hf rfl⟩
  case h_6 hf | h_10 hf | h_14 hf => exact ⟨rfl, formatR_fields_of hf rfl⟩

/-- Settles O3: every constructor the decoder answers keeps all the fields of the word. -/
theorem encodeOfDecodeIsTheWord : Obligations.EncodeOfDecodeIsTheWord := decodeWord_denotes

/-- The unrecognized words are those the decoder leaves without an instruction (R57, R60). -/
theorem decodeWord_eq_undef_iff (op : Word) : decodeWord op = .undef op ↔ unrecognized op = true := by
  refine ⟨fun h => ?_, decodeWord_of_unrecognized⟩
  have hwf := (decodeWord_denotes op).1
  rwa [h] at hwf

/-! ## The opcode table -/

theorem famOf_and (a b : Word) : famOf (a &&& b) = famOf a &&& famOf b := BitVec.extractLsb'_and ..
theorem nOf_and (a b : Word) : nOf (a &&& b) = nOf a &&& nOf b := BitVec.extractLsb'_and ..
theorem kkOf_and (a b : Word) : kkOf (a &&& b) = kkOf a &&& kkOf b := BitVec.extractLsb'_and ..

/-- What a hit says of the fields that a row's mask examines whole. -/
theorem OpcodeRow.fields_of_hits {row : OpcodeRow} {op : Word} (h : row.hits op = true) :
    (famOf row.mask = 0xF#4 → famOf op = famOf row.pattern) ∧ (nOf row.mask = 0xF#4 → nOf op = nOf row.pattern)
      ∧ (kkOf row.mask = 0xFF#8 → kkOf op = kkOf row.pattern) ∧ (row.mask = 0xFFFF#16 → op = row.pattern) := by
  have hp : op &&& row.mask = row.pattern := by simpa [OpcodeRow.hits] using h
  rw [← hp, famOf_and, nOf_and, kkOf_and]
  refine ⟨fun hm => ?_, fun hm => ?_, fun hm => ?_, fun hm => ?_⟩ <;> rw [hm]
  · exact (BitVec.and_allOnes (x := famOf op)).symm
  · exact (BitVec.and_allOnes (x := nOf op)).symm
  · exact (BitVec.and_allOnes (x := kkOf op)).symm
  · exact (BitVec.and_allOnes (x := op)).symm

/-- No two rows of the table share a word: where both masks look, their patterns differ. -/
theorem opcodeRows_disjoint : ∀ r ∈ opcodeRows, ∀ r' ∈ opcodeRows,
    r.pattern &&& r'.mask = r'.pattern &&& r.mask → r = r' := by decide

theorem OpcodeRow.eq_of_hits {r r' : OpcodeRow} {op : Word} (hr : r ∈ opcodeRows) (hr' : r' ∈ opcodeRows)
    (h : r.hits op = true) (h' : r'.hits op = true) : r = r' := by
  have hp : op &&& r.mask = r.pattern := by simpa [OpcodeRow.hits] using h
  have hp' : op &&& r'.mask = r'.pattern := by simpa [OpcodeRow.hits] using h'
  exact opcodeRows_disjoint r hr r' hr' (by
    rw [← hp, ← hp', BitVec.and_assoc, BitVec.and_assoc, BitVec.and_comm r.mask])

/-- Every row examines the family (R57). -/
theorem opcodeRows_fam : ∀ r ∈ opcodeRows, famOf r.mask = 0xF#4 := by decide

/-- The rows of the families whose key is more than the family (R57), and the keys that they list. -/
theorem opcodeRows_keys : ∀ r ∈ opcodeRows,
    (famOf r.pattern = 0x0#4 → r.mask = 0xFFFF#16 ∧ (r.pattern = 0x00E0#16 ∨ r.pattern = 0x00EE#16))
    ∧ (famOf r.pattern = 0x8#4 → nOf r.mask = 0xF#4
        ∧ nOf r.pattern ∉ [0x8#4, 0x9#4, 0xA#4, 0xB#4, 0xC#4, 0xD#4, 0xF#4])
    ∧ (famOf r.pattern = 0xE#4 → kkOf r.mask = 0xFF#8 ∧ kkOf r.pattern ∈ [0x9E#8, 0xA1#8])
    ∧ (famOf r.pattern = 0xF#4 → kkOf r.mask = 0xFF#8
        ∧ kkOf r.pattern ∈ [0x07#8, 0x0A#8, 0x15#8, 0x18#8, 0x1E#8, 0x29#8, 0x33#8, 0x55#8, 0x65#8]) := by decide

/-- No row of the table hits an unrecognized word: the word's key is none that the rows of its family list. -/
theorem hits_eq_false_of_unrecognized {op : Word} (h : unrecognized op = true) {row : OpcodeRow} (hmem : row ∈ opcodeRows) :
    row.hits op = false := by
  by_contra hits
  obtain ⟨hf, hn, hk, hop⟩ := OpcodeRow.fields_of_hits (Bool.not_eq_false _ ▸ hits)
  obtain ⟨key0, key8, keyE, keyF⟩ := opcodeRows_keys row hmem
  have hf := hf (opcodeRows_fam row hmem)
  obtain ⟨hfam, hcls, hret⟩ | ⟨hfam, hkey⟩ | ⟨hfam, hkey⟩ | ⟨hfam, hkey⟩ := (unrecognized_iff op).1 h
  · obtain ⟨hm, hp⟩ := key0 (hf ▸ hfam)
    rw [hop hm] at hcls hret
    exact hp.elim hcls hret
  · obtain ⟨hm, hp⟩ := key8 (hf ▸ hfam)
    exact hp (hn hm ▸ hkey)
  · obtain ⟨hm, hp⟩ := keyE (hf ▸ hfam)
    exact hkey (hk hm ▸ hp)
  · obtain ⟨hm, hp⟩ := keyF (hf ▸ hfam)
    exact hkey (hk hm ▸ hp)

/-- Every instruction has the fixed bits of its row (R59). -/
theorem Laws.EncodingFitsRow.all : (i : Instr) → Statement i
  | .cls => cls | .ret => ret | .jp n => jp n | .call n => call n | .seImm x k => seImm x k
  | .sneImm x k => sneImm x k | .seReg x y n => seReg x y n | .ldImm x k => ldImm x k | .addImm x k => addImm x k
  | .ldReg x y => ldReg x y | .orReg x y => orReg x y | .andReg x y => andReg x y | .xorReg x y => xorReg x y
  | .addReg x y => addReg x y | .sub x y => sub x y | .shr x y => shr x y | .subn x y => subn x y
  | .shl x y => shl x y | .sneReg x y n => sneReg x y n | .ldI n => ldI n | .jpV0 n => jpV0 n | .rnd x k => rnd x k
  | .drw x y n => drw x y n | .skp x => skp x | .sknp x => sknp x | .ldVxDT x => ldVxDT x | .ldVxK x => ldVxK x
  | .ldDTVx x => ldDTVx x | .ldSTVx x => ldSTVx x | .addI x => addI x | .ldF x => ldF x | .ldB x => ldB x
  | .ldMemVx x => ldMemVx x | .ldVxMem x => ldVxMem x | .undef op => undef op

/-- The one instruction without a row is `undef` (R59). -/
theorem rowOf_eq_none_iff (i : Instr) : rowOf i = none ↔ ∃ op, i = .undef op := by
  cases i <;> simp [rowOf]

theorem rowOf_mem_opcodeRows {i : Instr} {row : OpcodeRow} (h : rowOf i = some row) : row ∈ opcodeRows := by
  cases i <;> cases h <;> decide

theorem hits_of_rowOf_decodeWord {op : Word} {row : OpcodeRow} (h : rowOf (decodeWord op) = some row) :
    row.hits op = true := by
  have hits := Laws.EncodingFitsRow.all _ row h
  rwa [(decodeWord_denotes op).2] at hits

/-- Settles O4: a word's own row hits it and no second row does; a word without a row is `undef`, which no row hits. -/
theorem decoderAgreesWithOpcodeTable : Obligations.DecoderAgreesWithOpcodeTable := by
  intro op
  refine ⟨fun row hrow row' hmem => ⟨fun hits => ?_, ?_⟩, fun row => rowOf_mem_opcodeRows, fun hundef row hmem => ?_,
    fun hnone => ?_⟩
  · exact OpcodeRow.eq_of_hits hmem (rowOf_mem_opcodeRows hrow) hits (hits_of_rowOf_decodeWord hrow)
  · rintro rfl
    exact hits_of_rowOf_decodeWord hrow
  · exact hits_eq_false_of_unrecognized ((decodeWord_eq_undef_iff op).1 hundef) hmem
  · cases hrow : rowOf (decodeWord op) with
    | some row => exact absurd (hits_of_rowOf_decodeWord hrow) (by simp [hnone row (rowOf_mem_opcodeRows hrow)])
    | none =>
      obtain ⟨op', hundef⟩ := (rowOf_eq_none_iff _).1 hrow
      have henc := (decodeWord_denotes op).2
      rw [hundef] at henc ⊢
      exact congrArg Instr.undef henc

/-! ## The families of unrecognized words in arithmetic -/

theorem famOf_toNat (op : Word) : (famOf op).toNat = op.toNat / 0x1000 := by
  have := op.isLt
  simp [famOf, Nat.shiftRight_eq_div_pow]; omega

theorem nOf_toNat (op : Word) : (nOf op).toNat = op.toNat % 16 := by simp [nOf]

theorem kkOf_toNat (op : Word) : (kkOf op).toNat = op.toNat % 256 := by simp [kkOf]

/-- Settles O5: the decoder's unrecognized words are those of the list, whose keys are read as numbers. -/
theorem unrecognizedWordsAreTheListedOnes : Obligations.UnrecognizedWordsAreTheListedOnes := by
  intro op
  have hlt := op.isLt
  rw [decodeWord_eq_undef_iff, unrecognized_iff]
  simp only [List.mem_cons, List.not_mem_nil, ← BitVec.toNat_inj, famOf_toNat, nOf_toNat, kkOf_toNat, BitVec.toNat_ofNat,
    ne_eq, Nat.reducePow, Nat.reduceMod, or_false]
  refine or_congr ?_ (or_congr ?_ (or_congr ?_ ?_)) <;> omega

theorem decode_pair (hi lo : Byte) : decode [hi, lo] = .ok (decodeWord (wordOfBytes hi lo), []) := rfl

/-- Settles O1: each word is decoded by evaluation. -/
theorem handWrittenWordsDecode : Obligations.HandWrittenWordsDecode := by
  unfold Obligations.HandWrittenWordsDecode
  simp only [decode_pair, Except.ok.injEq, Prod.mk.injEq, and_true]
  decide

end Sys2Proof
end

section
/-! Inversion of `exec`, once for all instructions: how an instruction ends and what it leaves unchanged (00_scope.md R8; 10_state.md
R17, R26; 60_exceptions.md R116 to R120). -/

namespace Sys2Proof

/-- The pieces of state besides `pc` and the latch that an instruction may write. -/
def Instr.writes : Instr → List Machine.Part
  | .cls => [.fb]
  | .ret => [.sp]
  | .call _ => [.stack, .sp]
  | .ldImm _ _ | .addImm _ _ | .ldReg _ _ | .orReg _ _ | .andReg _ _ | .xorReg _ _ | .addReg _ _ | .sub _ _ | .shr _ _
  | .subn _ _ | .shl _ _ | .ldVxDT _ | .ldVxK _ | .ldVxMem _ => [.regs]
  | .rnd _ _ => [.regs, .draws]
  | .drw _ _ _ => [.regs, .fb]
  | .ldI _ | .addI _ | .ldF _ => [.index]
  | .ldDTVx _ => [.dt]
  | .ldSTVx _ => [.st]
  | .ldB _ | .ldMemVx _ => [.mem]
  | _ => []

theorem Instr.writes_mem_iff (i : Instr) : .mem ∈ i.writes ↔ ∃ x, i = .ldB x ∨ i = .ldMemVx x := by
  cases i <;> simp [Instr.writes]

theorem Instr.writes_fb_iff (i : Instr) : .fb ∈ i.writes ↔ i = .cls ∨ ∃ x y n, i = .drw x y n := by
  cases i <;> simp [Instr.writes]

theorem Instr.writes_stack_iff (i : Instr) : .stack ∈ i.writes ↔ ∃ nnn, i = .call nnn := by
  cases i <;> simp [Instr.writes]

theorem Instr.writes_sp_iff (i : Instr) : .sp ∈ i.writes ↔ i = .ret ∨ ∃ nnn, i = .call nnn := by
  cases i <;> simp [Instr.writes]

theorem Instr.stack_notMem_writes (i : Instr) (h : .sp ∉ i.writes) : .stack ∉ i.writes := fun hw =>
  h (i.writes_sp_iff.2 (.inr (i.writes_stack_iff.1 hw)))

theorem Instr.writes_index_iff (i : Instr) :
    .index ∈ i.writes ↔ (∃ nnn, i = .ldI nnn) ∨ (∃ x, i = .addI x) ∨ ∃ x, i = .ldF x := by
  cases i <;> simp [Instr.writes]

theorem Instr.writes_dt_iff (i : Instr) : .dt ∈ i.writes ↔ ∃ x, i = .ldDTVx x := by
  cases i <;> simp [Instr.writes]

theorem Instr.writes_st_iff (i : Instr) : .st ∈ i.writes ↔ ∃ x, i = .ldSTVx x := by
  cases i <;> simp [Instr.writes]

theorem Instr.writes_draws_iff (i : Instr) : .draws ∈ i.writes ↔ ∃ x kk, i = .rnd x kk := by
  cases i <;> simp [Instr.writes]

end Sys2Proof

namespace Sys2Proof.Machine

/-! ## How an instruction ends -/

/-- Executing `i` in `s` meets the fatal condition `c` (R117 to R119). -/
def Fatal.Met (i : Instr) (s : State) : Fatal → Prop
  | .stackOverflow => (∃ nnn, i = .call nnn) ∧ s.sp.val = 15
  | .stackUnderflow => i = .ret ∧ s.sp.val = 0
  | .memoryBounds => (∃ x y n, i = .drw x y n ∧ 0 < n.toNat ∧ 4095 < s.i.toNat + n.toNat - 1)
      ∨ (∃ x, i = .ldB x ∧ 4095 < s.i.toNat + 2)
      ∨ (∃ x, (i = .ldMemVx x ∨ i = .ldVxMem x) ∧ 4095 < s.i.toNat + x.toNat)

/-- Every piece of state that `i` does not write is the same data in `t` as in `s`; no instruction writes a key or `FONT`. -/
structure Frame (i : Instr) (s t : State) : Prop where
  regs : .regs ∉ i.writes → t.v = s.v
  index : .index ∉ i.writes → t.i = s.i
  stack : .stack ∉ i.writes → t.stack = s.stack
  sp : .sp ∉ i.writes → t.sp = s.sp
  dt : .dt ∉ i.writes → t.dt = s.dt
  st : .st ∉ i.writes → t.st = s.st
  fb : .fb ∉ i.writes → t.fb = s.fb
  mem : .mem ∉ i.writes → t.mem = s.mem
  draws : .draws ∉ i.writes → t.draws = s.draws
  keys : t.keys = s.keys
  font : t.font = s.font

/-- The three ends of an instruction (R8): it raises a condition that it meets, it is held, or it completes. -/
inductive Ends (i : Instr) (s : State) : State → Prop where
  | fatal (c : Fatal) : c.Met i s → Ends i s (s.raise c)
  | held (x : Nibble) : i = .ldVxK x → s.firstKey = none → Ends i s s
  | completed {t : State} : (∀ c : Fatal, ¬ c.Met i s) → Frame i s t → t.fault = s.fault → t.pc ∈ allowedPcs i s → Ends i s t

/-- At most one condition is met (R123). -/
theorem Fatal.Met.unique {i : Instr} {s : State} {c d : Fatal} (hc : c.Met i s) (hd : d.Met i s) : c = d := by
  cases c <;> cases d <;> grind [Fatal.Met]

theorem Frame.refl (i : Instr) (s : State) : Frame i s s := by constructor <;> intros <;> rfl

theorem Frame.raise (i : Instr) (s : State) (c : Fatal) : Frame i s (s.raise c) := by constructor <;> intros <;> rfl

theorem State.skipIf_pc_mem (s : State) (c : Bool) : (s.skipIf c).pc ∈ [s.pc + 2#16, s.pc + 4#16] := by
  cases c <;> simp

theorem exec_ends {i : Instr} {s t : State} (h : exec i s = .next t) : Ends i s t := by
  cases i with
  | ret =>
    obtain ⟨h0, rfl⟩ | ⟨h0, rfl⟩ := exec_ret_cases h
    · exact .fatal .stackUnderflow ⟨rfl, h0⟩
    · refine .completed (fun c => ?_) ?_ rfl (List.mem_singleton_self _)
      · cases c <;> simp [Fatal.Met, h0]
      · constructor <;> simp [Instr.writes]
  | call nnn =>
    obtain ⟨h0, rfl⟩ | ⟨h0, rfl⟩ := exec_call_cases h
    · exact .fatal .stackOverflow ⟨⟨nnn, rfl⟩, h0⟩
    · refine .completed (fun c => ?_) ?_ rfl (List.mem_singleton_self _)
      · cases c <;> simp [Fatal.Met, h0]
      · constructor <;> simp [Instr.writes]
  | drw x y n =>
    obtain ⟨hn, hb, rfl⟩ | ⟨hb, rfl⟩ := exec_drw_cases h
    · exact .fatal .memoryBounds (.inl ⟨x, y, n, rfl, hn, hb⟩)
    · refine .completed (fun c => ?_) ?_ rfl (List.mem_singleton_self _)
      · cases c <;> simp [Fatal.Met]; omega
      · constructor <;> simp [Instr.writes, State.afterDraw]
  | ldB x =>
    obtain ⟨hb, rfl⟩ | ⟨hb, rfl⟩ := exec_ldB_cases h
    · exact .fatal .memoryBounds (.inr (.inl ⟨x, rfl, hb⟩))
    · refine .completed (fun c => ?_) ?_ rfl (List.mem_singleton_self _)
      · cases c <;> simp [Fatal.Met, hb]
      · constructor <;> simp [Instr.writes]
  | ldMemVx x =>
    obtain ⟨hb, rfl⟩ | ⟨hb, rfl⟩ := exec_ldMemVx_cases h
    · exact .fatal .memoryBounds (.inr (.inr ⟨x, .inl rfl, hb⟩))
    · refine .completed (fun c => ?_) ?_ rfl (List.mem_singleton_self _)
      · cases c <;> simp [Fatal.Met, hb]
      · constructor <;> simp [Instr.writes]
  | ldVxMem x =>
    obtain ⟨hb, rfl⟩ | ⟨hb, rfl⟩ := exec_ldVxMem_cases h
    · exact .fatal .memoryBounds (.inr (.inr ⟨x, .inr rfl, hb⟩))
    · refine .completed (fun c => ?_) ?_ rfl (List.mem_singleton_self _)
      · cases c <;> simp [Fatal.Met, hb]
      · constructor <;> simp [Instr.writes]
  | ldVxK x =>
    obtain ⟨hk, rfl⟩ | ⟨k, -, rfl⟩ := exec_ldVxK_cases h
    · exact .held x rfl hk
    · refine .completed (fun c => ?_) ?_ rfl (List.mem_singleton_self _)
      · cases c <;> simp [Fatal.Met]
      · constructor <;> simp [Instr.writes]
  | seImm | sneImm | seReg | sneReg | skp | sknp =>
    cases h
    refine .completed (fun c => ?_) ?_ rfl (State.skipIf_pc_mem s _)
    · cases c <;> simp [Fatal.Met]
    · constructor <;> simp [Instr.writes]
  | _ =>
    cases h
    refine .completed (fun c => ?_) ?_ rfl (List.mem_singleton_self _)
    · cases c <;> simp [Fatal.Met]
    · constructor <;> simp [Instr.writes]

/-- What an instruction does not write it keeps, however it ends. -/
theorem exec_frame {i : Instr} {s t : State} (h : exec i s = .next t) : Frame i s t := by
  cases exec_ends h with
  | fatal c _ => exact .raise i s c
  | held => exact .refl i s
  | completed _ hf _ _ => exact hf

/-! ## Every instruction answers a next state -/

theorem State.finish_next (s : State) (r : Except Fatal State) : ∃ t, s.finish r = .next t := by
  cases r <;> exact ⟨_, rfl⟩

theorem exec_next (i : Instr) (s : State) : ∃ t, exec i s = .next t := by
  cases i with
  | ret | call | drw | ldB | ldMemVx | ldVxMem => exact State.finish_next s _
  | ldVxK x =>
    simp only [exec, execLdVxK]
    split <;> exact ⟨_, rfl⟩
  | _ => exact ⟨_, rfl⟩

end Sys2Proof.Machine
end

section
/-! The invariant of reachable states (10_state.md R31): after reset, under every step and host action, along every run. -/

namespace Sys2Proof.Machine

/-- The invariant speaks of memory, `FONT`, `pc` and the stack alone. -/
theorem State.Inv.of_same {s t : State} (h : s.Inv) (hmem : t.mem = s.mem) (hfont : t.font = s.font) (hpc : t.pc = s.pc)
    (hstack : t.stack = s.stack) (hsp : t.sp = s.sp) : t.Inv where
  memWf := by
    have := h.memWf
    rwa [State.memWf, ← hmem, ← hfont] at this
  pcBound := hpc ▸ h.pcBound
  liveSlots := by
    rw [hstack, hsp]
    exact h.liveSlots
  slotZero := by
    rw [hstack]
    exact h.slotZero

/-! ## Steps -/

theorem State.storeBytes_memWf {s t : State} {a : Nat} {bs : List Byte} (hm : s.memWf) (h : s.storeBytes a bs = .ok t) :
    t.memWf := by
  obtain ⟨u, hu, -, hwf⟩ | herr := State.storeBytes_cases s a bs hm
  · cases hu.symm.trans h
    exact hwf
  · cases herr.symm.trans h

/-- The two stores write inside the Address Space, and no other instruction writes memory. -/
theorem exec_memWf {i : Instr} {s t : State} (hm : s.memWf) (h : exec i s = .next t) : t.memWf := by
  have frame := exec_frame h
  by_cases hw : .mem ∈ i.writes
  · obtain ⟨x, rfl | rfl⟩ := i.writes_mem_iff.1 hw
    · obtain ⟨-, rfl⟩ | ⟨hb, rfl⟩ := exec_ldB_cases h
      · exact hm
      · exact State.memWf_setMem_memWith hm _ _ (by simp [State.base, Config.memSize]; omega)
    · obtain ⟨-, rfl⟩ | ⟨hb, rfl⟩ := exec_ldMemVx_cases h
      · exact hm
      · exact State.memWf_setMem_memWith hm _ _ (by simp [State.base, Config.memSize, State.length_regsUpTo]; omega)
  · rw [State.memWf, frame.mem hw, frame.font]
    exact hm

/-- A `pc` that a fetched instruction gives is at most `0xFFF + 0xFF`, that of `Bnnn` (R17). -/
theorem allowedPcs_bound {i : Instr} {s : State} (hinv : s.Inv) (hfetch : s.pc.toNat ≤ 4094) {a : Word}
    (ha : a ∈ allowedPcs i s) : a.toNat ≤ 0x10FE := by
  have popped : (s.stack[s.sp.val]).toNat ≤ 4094 := by
    by_cases h0 : s.sp.val = 0
    · simp [h0, hinv.slotZero]
    · exact hinv.liveSlots s.sp (by omega) (Nat.le_refl _)
  cases i with
  | ret =>
    obtain rfl := List.mem_singleton.1 ha
    rw [BitVec.toNat_add]; simp; omega
  | jp nnn | call nnn =>
    obtain rfl := List.mem_singleton.1 ha
    rw [zextAddr_toNat]; omega
  | jpV0 nnn =>
    obtain rfl := List.mem_singleton.1 ha
    have := (s.getV 0#4).isLt
    rw [zextAddr_add_zextByte_toNat]; omega
  | seImm | sneImm | seReg | sneReg | skp | sknp =>
    simp only [allowedPcs, List.mem_cons, List.not_mem_nil, or_false] at ha
    obtain rfl | rfl := ha <;> bv_omega
  | _ =>
    obtain rfl := List.mem_singleton.1 ha
    bv_omega

/-- The live slots after an instruction: a call adds the address it was fetched from, a return takes one away (R31). -/
theorem exec_liveSlots {i : Instr} {s t : State} (hinv : s.Inv) (hfetch : s.pc.toNat ≤ 4094) (h : exec i s = .next t) :
    ∀ k : Fin 16, 1 ≤ k.val → k.val ≤ t.sp.val → (t.stack[k.val]).toNat ≤ 4094 := by
  have frame := exec_frame h
  intro k h1 hk
  by_cases hw : .sp ∈ i.writes
  · obtain rfl | ⟨nnn, rfl⟩ := i.writes_sp_iff.1 hw
    · obtain ⟨-, rfl⟩ | ⟨hne, rfl⟩ := exec_ret_cases h
      · exact hinv.liveSlots k h1 hk
      · exact hinv.liveSlots k h1 (hk.trans (Nat.sub_le _ _))
    · obtain ⟨-, rfl⟩ | ⟨hne, rfl⟩ := exec_call_cases h
      · exact hinv.liveSlots k h1 hk
      · simp only [State.setPc_stack, State.setStack_stack, Vector.getElem_set]
        split
        · exact hfetch
        · exact hinv.liveSlots k h1 (by simp at hk; omega)
  · rw [frame.sp hw] at hk
    simp only [frame.stack (i.stack_notMem_writes hw)]
    exact hinv.liveSlots k h1 hk

theorem exec_slotZero {i : Instr} {s t : State} (h : exec i s = .next t) : t.stack[0] = s.stack[0] := by
  by_cases hw : .stack ∈ i.writes
  · obtain ⟨nnn, rfl⟩ := i.writes_stack_iff.1 hw
    obtain ⟨-, rfl⟩ | ⟨-, rfl⟩ := exec_call_cases h
    · rfl
    · simp
  · rw [(exec_frame h).stack hw]

theorem exec_pcBound {i : Instr} {s t : State} (hinv : s.Inv) (hfetch : s.pc.toNat ≤ 4094) (h : exec i s = .next t) :
    t.pc.toNat ≤ 0x10FE := by
  cases exec_ends h with
  | fatal | held => exact hinv.pcBound
  | completed _ _ _ hpc => exact allowedPcs_bound hinv hfetch hpc

/-- Settles O20: a halted core and a failed fetch change no piece of state the invariant speaks of; else the fetch was in bounds,
and each field of the invariant is kept by every instruction. -/
theorem stepKeepsTheInvariant : Obligations.StepKeepsTheInvariant := by
  intro s t hinv h
  obtain ⟨-, -, hs⟩ | ⟨-, -, hs⟩ | ⟨op, -, hfetch, -, hs⟩ := step_cases s <;> rw [hs] at h
  · cases h
    exact hinv
  · cases h
    exact hinv.of_same rfl rfl rfl rfl rfl
  · exact ⟨exec_memWf hinv.memWf h, exec_pcBound hinv hfetch h, exec_liveSlots hinv hfetch h,
      (exec_slotZero h).trans hinv.slotZero⟩

/-! ## Reset and the host's actions -/

theorem inv_resetWith (f : Font) : (State.resetWith f).Inv where
  memWf := State.memWf_resetWith f
  pcBound := by simp [State.resetWith, Config.progBase]
  liveSlots k h1 hk := absurd (h1.trans hk) (by simp [State.resetWith])
  slotZero := by simp [State.resetWith]

/-- Settles O19: it is the case of the default `FONT`. -/
theorem resetMeetsTheInvariant : Obligations.ResetMeetsTheInvariant := inv_resetWith defaultFont

theorem State.Inv.withDraws {s : State} (h : s.Inv) (d : Nat) : (s.withDraws d).Inv := h.of_same rfl rfl rfl rfl rfl

theorem State.Inv.setKey {s : State} (h : s.Inv) (k : Nibble) (b : Bool) : (s.setKey k b).Inv := h.of_same rfl rfl rfl rfl rfl

theorem State.Inv.timerTick {s : State} (h : s.Inv) : s.timerTick.Inv := h.of_same rfl rfl rfl rfl rfl

/-- An image that fits ends at the end of the Address Space at most; one that does not is not loaded (R50). -/
theorem State.Inv.loadImage {s : State} (h : s.Inv) (bytes : List Byte) : (s.loadImage bytes).1.Inv := by
  by_cases hfits : bytes.length ≤ Config.maxImage
  · rw [State.loadImage_fits s hfits]
    refine ⟨State.memWf_setMem_memWith h.memWf _ _ ?_, h.pcBound, h.liveSlots, h.slotZero⟩
    simp only [Config.progBase, Config.memSize, Config.maxImage] at hfits ⊢
    omega
  · rwa [State.loadImage_rejected ((State.loadImage_ok s bytes).trans (decide_eq_false hfits))]

/-- Settles O21: each action writes a piece of state the invariant does not speak of, resets it, or stores in bounds. -/
theorem hostActionsKeepTheInvariant : Obligations.HostActionsKeepTheInvariant := by
  intro s a h
  cases a with
  | reset => exact (inv_resetWith s.font).withDraws s.draws
  | loadImage bytes => exact h.loadImage bytes
  | setKey k b => exact h.setKey k b
  | timerTick => exact h.timerTick

/-! ## Reachable states -/

theorem Reach.inv {s : State} (h : Reach s) : s.Inv := by
  induction h with
  | reset f => exact inv_resetWith f
  | step _ hs ih => exact stepKeepsTheInvariant _ _ ih hs
  | host a _ ih => exact hostActionsKeepTheInvariant _ a ih

theorem Run.inv {f : Font} {image : List Byte} {s : State} (h : Run f image s) : s.Inv := by
  induction h with
  | launch d _ => exact ((inv_resetWith f).loadImage image).withDraws d
  | step _ hs ih => exact stepKeepsTheInvariant _ _ ih hs
  | setKey k b _ ih => exact ih.setKey k b
  | timerTick _ ih => exact ih.timerTick

/-- A session admits a load only before the first load and the first step since `Reset` (R52, R138). -/
theorem Session.phase_of_load {z z' : Session} {bytes : List Byte} (h : z.host (.loadImage bytes) = some z') :
    z.phase = .afterReset := by
  by_contra hphase
  rw [(z.host_eq_none_iff _).2 ⟨⟨bytes, rfl⟩, hphase⟩] at h
  cases h

/-- Settles O22: each field of the invariant is kept along any run, and the boot sequence is what `Session.Booted` says. -/
theorem reachableStatesMeetTheInvariant : Obligations.ReachableStatesMeetTheInvariant := by
  refine ⟨fun s h => h.inv, fun z h => ⟨h.reach.inv, h.booted.okWhereStepping, fun z' bytes hload => ?_⟩,
    fun f image s h => h.inv⟩
  exact h.booted.memBeforeLoad (by rw [Session.phase_of_load hload]; rfl)

end Sys2Proof.Machine
end

section
/-! The step: its outcomes, its fatal conditions, the event, the latch and the fixed points (30_encoding.md R58; 60_exceptions.md R115
to R123; 70_reset_and_hazards.md R148). -/

namespace Sys2Proof.Machine

/-! ## The fetch -/

theorem State.current_of_fetch {s : State} {op : Word} (h : s.fetch = .ok op) : s.current = some (decodeWord op) := by
  rw [State.current, h]

/-- A core that cannot fetch has no current instruction. -/
theorem State.current_of_out {s : State} (h : 4094 < s.pc.toNat) : s.current = none := by
  rw [State.current, State.fetch_error s h]

theorem step_halted {s : State} (h : ¬ s.running) : step s = .next s := by
  obtain ⟨-, -, hs⟩ | ⟨hr, -⟩ | ⟨-, hr, -⟩ := step_cases s
  · exact hs
  · exact absurd hr h
  · exact absurd hr h

/-- What a running core does: a failed fetch, or its current instruction (R58). -/
theorem step_running_cases {s : State} (hr : s.running) :
    (4094 < s.pc.toNat ∧ s.current = none ∧ step s = .next (s.raise .memoryBounds))
      ∨ (s.pc.toNat ≤ 4094 ∧ ∃ i, s.current = some i ∧ step s = exec i s) := by
  obtain ⟨c, hc, -⟩ | ⟨-, hb, hs⟩ | ⟨op, -, hb, hf, hs⟩ := step_cases s
  · cases hr.symm.trans hc
  · exact .inl ⟨hb, State.current_of_out hb, hs⟩
  · exact .inr ⟨hb, _, State.current_of_fetch hf, hs⟩

/-- The current instruction is what the two bytes at `pc` decode to (R41, R53). -/
theorem State.current_of_decode {s : State} {i : Instr} (hpc : s.pc.toNat ≤ 4094)
    (h : decode [s.byteAt s.pc.toNat, s.byteAt (s.pc.toNat + 1)] = .ok (i, [])) : s.current = some i := by
  rw [decode_pair] at h
  cases h
  exact State.current_of_fetch (s.fetch_ok hpc)

/-- Settles O12: the two bytes are those the fetch reads. -/
theorem stepRunsTheDecodedInstruction : Obligations.StepRunsTheDecodedInstruction := fun _ _ hr hpc h =>
  step_of_current hr (State.current_of_decode hpc h)

/-- Settles O13: the one check of the fetch fails. -/
theorem fetchOutOfBoundsRaises : Obligations.FetchOutOfBoundsRaises := by
  intro s hr hpc
  obtain ⟨-, -, hs⟩ | ⟨hb, -⟩ := step_running_cases hr
  · exact ⟨_, hs, rfl, keeps_raise s _⟩
  · omega

/-- Settles O15: a step is a state at hand or an instruction, and every instruction answers a next state. -/
theorem everyStepAnswersANextState : Obligations.EveryStepAnswersANextState := by
  intro s
  obtain ⟨-, -, hs⟩ | ⟨-, -, hs⟩ | ⟨op, -, -, -, hs⟩ := step_cases s
  · exact ⟨_, hs⟩
  · exact ⟨_, hs⟩
  · exact hs ▸ exec_next _ s

/-! ## The event -/

theorem stepEvent_halted {s : State} (h : ¬ s.running) : stepEvent s = none := by
  unfold stepEvent
  split
  · exact absurd ‹_› h
  · rfl

/-- The event of a running core is that of its current instruction (R115). -/
theorem stepEvent_running {s : State} (hr : s.running) : stepEvent s = s.current.bind fun i => diagOf i s := by
  unfold stepEvent State.current
  rw [hr]
  cases s.fetch <;> rfl

theorem diagOf_eq_some_iff (i : Instr) (s : State) (e : DiagEvent) :
    diagOf i s = some e ↔ i = .undef e.op ∧ e.pc = s.pc := by
  obtain ⟨pc, op⟩ := e
  cases i <;> simp [diagOf, and_comm, eq_comm]

/-- Settles O14: the step and the event both ask the latch first. -/
theorem haltedCoreChangesNothing : Obligations.HaltedCoreChangesNothing := fun _ h => ⟨step_halted h, stepEvent_halted h⟩

/-- Settles O18: the event is that of the current instruction of a running core, and only `undef` has one. -/
theorem onlyUnrecognizedOpcodesEmitTheEvent : Obligations.OnlyUnrecognizedOpcodesEmitTheEvent := by
  refine fun s => ⟨fun op hr hc => ?_, fun e he => ?_⟩
  · rw [stepEvent_running hr, hc]
    rfl
  · have hr : s.running := by
      by_contra hhalt
      rw [stepEvent_halted hhalt] at he
      cases he
    rw [stepEvent_running hr, Option.bind_eq_some_iff] at he
    obtain ⟨i, hc, hd⟩ := he
    obtain ⟨rfl, hpc⟩ := (diagOf_eq_some_iff i s e).1 hd
    exact ⟨hr, hpc, hc⟩

/-! ## The outcomes of a step -/

/-- Settles O10: a halted core keeps its state, and of the host's actions only `Reset` writes the latch. -/
theorem onlyResetClearsTheFaultLatch : Obligations.OnlyResetClearsTheFaultLatch := by
  refine fun s c hc => ⟨fun t hs => ?_, fun a ha => ?_, rfl⟩
  · rw [step_halted (by simp [State.running, hc])] at hs
    cases hs
    exact hc
  · cases a with
    | reset => exact absurd rfl ha
    | loadImage bytes =>
      simp only [State.hostAct, State.loadImage]
      split <;> exact hc
    | setKey | timerTick => exact hc

/-- Settles O16: the three outcomes are the three ends of the current instruction, and a failed fetch is fatal. -/
theorem stepCompletesHoldsOrFails : Obligations.StepCompletesHoldsOrFails := by
  intro s hr
  obtain ⟨-, -, hs⟩ | ⟨-, i, hc, hs⟩ := step_running_cases hr
  · exact ⟨_, hs, .inr (.inr ⟨_, rfl⟩)⟩
  · obtain ⟨t, ht⟩ := exec_next i s
    refine ⟨t, hs.trans ht, ?_⟩
    cases exec_ends ht with
    | fatal c _ => exact .inr (.inr ⟨c, rfl⟩)
    | held x hi hk => exact .inr (.inl ⟨x, hi ▸ hc, (s.firstKey_eq_none_iff).1 hk, rfl⟩)
    | completed _ _ hf hpc => exact .inl ⟨i, hc, ht, hf.trans hr, hpc⟩

/-- The latch after an instruction of a running core shows the condition that it met, if any (R120). -/
theorem exec_fault_iff {i : Instr} {s t : State} (hr : s.running) (h : exec i s = .next t) (c : Fatal) :
    t.fault = some c ↔ c.Met i s := by
  cases exec_ends h with
  | fatal d hd =>
    refine ⟨fun e => ?_, fun hc => congrArg some (hd.unique hc)⟩
    cases e
    exact hd
  | held x hi _ =>
    subst hi
    cases c <;> simp [Fatal.Met, show s.fault = none from hr]
  | completed hnone _ hf _ => simp [hnone c, hf, show s.fault = none from hr]

/-- An instruction of a running core that ends with the latch set changes nothing else (R120). -/
theorem exec_fatal_keeps {i : Instr} {s t : State} (hr : s.running) (h : exec i s = .next t) {c : Fatal}
    (hc : t.fault = some c) : KeepsExcept [.fault] s t := by
  cases exec_ends h with
  | fatal d _ => exact keeps_raise s d
  | held => exact .refl _ s
  | completed _ _ hf _ => cases (hf.trans hr).symm.trans hc

/-- Settles O17: the failed fetch raises `MemoryBounds`, and an executed instruction the condition that it meets. -/
theorem fatalConditionsAreTheListedOnes : Obligations.FatalConditionsAreTheListedOnes := by
  intro s hr
  obtain ⟨hb, hc, hs⟩ | ⟨hb, i, hc, hs⟩ := step_running_cases hr
  · exact ⟨_, hs, by simp [hc], by simp [hc], by simp [hb], fun c _ => keeps_raise s _⟩
  · obtain ⟨t, ht⟩ := exec_next i s
    refine ⟨t, hs.trans ht, ?_, ?_, ?_, fun c => exec_fatal_keeps hr ht⟩
    · simp [exec_fault_iff hr ht, Fatal.Met, hc]
    · simp [exec_fault_iff hr ht, Fatal.Met, hc]
    · simp [exec_fault_iff hr ht, Fatal.Met, hc, Nat.not_lt.2 hb]

/-! ## Fixed points -/

theorem State.ne_raise {s : State} (hr : s.running) (c : Fatal) : s.raise c ≠ s := fun e => by
  have := congrArg State.fault e
  rw [hr] at this
  cases this

/-- A return or a call moves the stack pointer or raises. -/
theorem exec_stack_ne {i : Instr} {s : State} (hr : s.running) (hi : i = .ret ∨ ∃ nnn, i = .call nnn) :
    exec i s ≠ .next s := by
  intro h
  obtain rfl | ⟨nnn, rfl⟩ := hi
  · obtain ⟨-, e⟩ | ⟨h0, e⟩ := exec_ret_cases h
    · exact State.ne_raise hr _ e.symm
    · have := congrArg (fun u => u.sp.val) e
      simp at this; omega
  · obtain ⟨-, e⟩ | ⟨h0, e⟩ := exec_call_cases h
    · exact State.ne_raise hr _ e.symm
    · have := congrArg (fun u => u.sp.val) e
      simp at this

/-- An instruction that leaves a running core as it is was held, or completed with `pc` unmoved. -/
theorem exec_fixed_ends {i : Instr} {s t : State} (hr : s.running) (h : exec i s = .next t) (e : t = s) :
    (∃ x, i = .ldVxK x ∧ s.firstKey = none) ∨ s.pc ∈ allowedPcs i s := by
  cases exec_ends h with
  | fatal c _ => exact absurd e (State.ne_raise hr c)
  | held x hi hk => exact .inl ⟨x, hi, hk⟩
  | completed _ _ _ hpc => exact .inr (e ▸ hpc)

/-- The instructions that leave a running core as it is: all others advance `pc` or move the stack pointer. -/
theorem exec_fixed {i : Instr} {s : State} (hr : s.running) (h : exec i s = .next s) :
    (∃ nnn, i = .jp nnn ∧ zextAddr nnn = s.pc) ∨ (∃ x, i = .ldVxK x ∧ s.firstKey = none)
      ∨ ∃ nnn, i = .jpV0 nnn ∧ zextAddr nnn + zextByte (s.getV 0#4) = s.pc := by
  obtain hheld | hpc := exec_fixed_ends hr h rfl
  · exact .inr (.inl hheld)
  · cases i with
    | jp nnn => exact .inl ⟨nnn, rfl, (List.mem_singleton.1 hpc).symm⟩
    | jpV0 nnn => exact .inr (.inr ⟨nnn, rfl, (List.mem_singleton.1 hpc).symm⟩)
    | ret => exact absurd h (exec_stack_ne hr (.inl rfl))
    | call nnn => exact absurd h (exec_stack_ne hr (.inr ⟨nnn, rfl⟩))
    | _ => simp [allowedPcs] at hpc

theorem exec_jp_self {s : State} {nnn : Addr12} (h : zextAddr nnn = s.pc) : exec (.jp nnn) s = .next s := by
  rw [exec_jp, h]
  rfl

theorem exec_jpV0_self {s : State} {nnn : Addr12} (h : zextAddr nnn + zextByte (s.getV 0#4) = s.pc) :
    exec (.jpV0 nnn) s = .next s := by
  rw [exec_jpV0, h]
  rfl

theorem exec_ldVxK_held {s : State} (x : Nibble) (h : s.firstKey = none) : exec (.ldVxK x) s = .next s := by
  simp only [exec, execLdVxK, h]

theorem zextAddr_eq_iff (nnn : Addr12) (a : Word) : zextAddr nnn = a ↔ nnn.toNat = a.toNat := by
  rw [← BitVec.toNat_inj, zextAddr_toNat]

theorem zextAddr_add_zextByte_eq_iff (nnn : Addr12) (b : Byte) (a : Word) :
    zextAddr nnn + zextByte b = a ↔ nnn.toNat + b.toNat = a.toNat := by
  rw [← BitVec.toNat_inj, zextAddr_add_zextByte_toNat]

theorem step_of_ended {s : State} (h : s.ended) : step s = .next s := by
  obtain ⟨hr, nnn, hc, hn⟩ := h
  rw [step_of_current hr hc, exec_jp_self ((zextAddr_eq_iff nnn s.pc).2 hn)]

/-- Settles O34: the two bytes are those of the jump, so it is the current instruction; the fixed points are those of `exec`. -/
theorem selfJumpIsAFixedPoint : Obligations.SelfJumpIsAFixedPoint := by
  refine ⟨fun s nnn hr hpc hn hhi hlo => ?_, fun s hr => ⟨fun h => ?_, ?_⟩⟩
  · have hc : s.current = some (.jp nnn) := by
      apply State.current_of_decode hpc
      rw [hhi, hlo, decode_bytes, decodeWord_encode rfl]
    have hend : s.ended := ⟨hr, nnn, hc, hn⟩
    exact ⟨hend, step_of_ended hend⟩
  · obtain ⟨-, -, hs⟩ | ⟨-, i, hc, hs⟩ := step_running_cases hr
    · exact absurd (Host.Outcome.next.inj (hs.symm.trans h)) (State.ne_raise hr _)
    · obtain ⟨nnn, rfl, hn⟩ | ⟨x, rfl, hk⟩ | ⟨nnn, rfl, hn⟩ := exec_fixed hr (hs.symm.trans h)
      · exact .inl ⟨hr, nnn, hc, (zextAddr_eq_iff nnn s.pc).1 hn⟩
      · exact .inr (.inl ⟨hr, ⟨x, hc⟩, s.firstKey_eq_none_iff.1 hk⟩)
      · exact .inr (.inr ⟨nnn, hc, (zextAddr_add_zextByte_eq_iff nnn _ s.pc).1 hn⟩)
  · rintro (hend | ⟨-, ⟨x, hc⟩, hk⟩ | ⟨nnn, hc, hn⟩)
    · exact step_of_ended hend
    · rw [step_of_current hr hc, exec_ldVxK_held x (s.firstKey_eq_none_iff.2 hk)]
    · rw [step_of_current hr hc, exec_jpV0_self ((zextAddr_add_zextByte_eq_iff nnn _ s.pc).2 hn)]

end Sys2Proof.Machine
end

section
/-! Which instructions and host actions write each piece of state (10_state.md R14 to R26). -/

namespace Sys2Proof.Machine

/-- Settles O23: an instruction keeps what it does not write, and of the host's actions each writes its own piece of state. -/
theorem onlyStoresWriteMemoryAndOnlyDrawsWritePixels : Obligations.OnlyStoresWriteMemoryAndOnlyDrawsWritePixels := by
  refine ⟨fun i s t h => ⟨fun hi => ?_, fun hi => ?_, (exec_frame h).font⟩, fun s a => ?_⟩
  · refine (exec_frame h).mem fun hw => ?_
    obtain ⟨x, hx⟩ := i.writes_mem_iff.1 hw
    exact hx.elim (hi x).1 (hi x).2
  · refine (exec_frame h).fb fun hw => ?_
    obtain hcls | ⟨x, y, n, hdrw⟩ := i.writes_fb_iff.1 hw
    · exact hi.1 hcls
    · exact hi.2 x y n hdrw
  · cases a with
    | reset => exact ⟨fun h => absurd rfl h, rfl⟩
    | loadImage bytes =>
      simp only [State.hostAct, State.loadImage]
      split <;> exact ⟨fun _ => ⟨fun h => absurd rfl (h bytes), rfl⟩, rfl⟩
    | setKey | timerTick => exact ⟨fun _ => ⟨fun _ => rfl, rfl⟩, rfl⟩

/-- Settles O25: an instruction keeps what it does not write. -/
theorem indexTimersKeysAndDrawsHaveTheirWriters : Obligations.IndexTimersKeysAndDrawsHaveTheirWriters := by
  intro i s t h
  have frame := exec_frame h
  refine ⟨fun hi => frame.index fun hw => ?_, fun hi => frame.dt fun hw => ?_, fun hi => frame.st fun hw => ?_, frame.keys,
    fun hi => frame.draws fun hw => ?_⟩
  · obtain ⟨nnn, hx⟩ | ⟨x, hx⟩ | ⟨x, hx⟩ := i.writes_index_iff.1 hw
    · exact (hi nnn 0).1 hx
    · exact (hi 0 x).2.1 hx
    · exact (hi 0 x).2.2 hx
  · obtain ⟨x, hx⟩ := i.writes_dt_iff.1 hw
    exact hi x hx
  · obtain ⟨x, hx⟩ := i.writes_st_iff.1 hw
    exact hi x hx
  · obtain ⟨x, kk, hx⟩ := i.writes_draws_iff.1 hw
    exact hi x kk hx

/-- However an instruction ends, every register but its destinations and its flag is kept (R14, R15). -/
theorem exec_getV {i : Instr} {s t : State} (h : exec i s = .next t) {r : Nibble} (hd : ¬ i.isDest r)
    (hf : ¬ (i.writesFlag = true ∧ r = flagReg)) : t.getV r = s.getV r := by
  by_cases hw : .regs ∈ i.writes
  · cases i with
    | drw x y n =>
      obtain ⟨-, -, rfl⟩ | ⟨-, rfl⟩ := exec_drw_cases h
      · rfl
      · exact State.getV_setV_ne _ _ fun e => hf ⟨rfl, e⟩
    | ldVxMem x =>
      obtain ⟨-, rfl⟩ | ⟨-, rfl⟩ := exec_ldVxMem_cases h
      · rfl
      · exact (State.getV_afterLoad s x r).trans (if_neg hd)
    | ldVxK x =>
      obtain ⟨-, rfl⟩ | ⟨k, -, rfl⟩ := exec_ldVxK_cases h
      · rfl
      · exact State.getV_setV_ne _ _ hd
    | addReg | sub | shr | subn | shl =>
      cases h
      exact (State.getV_setV_ne _ _ fun e => hf ⟨rfl, e⟩).trans (State.getV_setV_ne _ _ hd)
    | ldImm | addImm | ldReg | orReg | andReg | xorReg | rnd | ldVxDT =>
      cases h
      exact State.getV_setV_ne _ _ hd
    | _ => simp [Instr.writes] at hw
  · simp only [State.getV, (exec_frame h).regs hw]

theorem flagByte_zero_or_one (b : Bool) : flagByte b = 0 ∨ flagByte b = 1 := by cases b <;> decide

/-- A flag-writing instruction that completes ends in a write of the flag (R14). -/
theorem exec_flag {i : Instr} {s t : State} (h : exec i s = .next t) (hf : i.writesFlag = true) (ht : t.running) :
    ∃ b, t.getV flagReg = flagByte b := by
  cases i with
  | drw x y n =>
    obtain ⟨-, -, rfl⟩ | ⟨-, rfl⟩ := exec_drw_cases h
    · cases ht
    · exact ⟨_, State.getV_setV_same _ _ _⟩
  | addReg | sub | shr | subn | shl =>
    cases h
    exact ⟨_, State.getV_setV_same _ _ _⟩
  | _ => cases hf

/-- Settles O26: the frame of the registers, and the flag write that ends each flag-writing instruction. -/
theorem registersChangeOnlyAsDestinationOrFlag : Obligations.RegistersChangeOnlyAsDestinationOrFlag := by
  refine fun i s t h => ⟨fun r => exec_getV h, fun hf _ ht => ?_⟩
  obtain ⟨b, hb⟩ := exec_flag h hf ht
  rw [hb]
  exact flagByte_zero_or_one b

end Sys2Proof.Machine
end

section
/-! The instructions with more than one end, each end by its condition: the inversions of `exec` read forwards, since an instruction
always answers a next state. -/

namespace Sys2Proof.Machine

/-! ## `00EE` and `2nnn` (R67, R69) -/

theorem exec_ret_empty {s : State} (h : s.sp.val = 0) : exec .ret s = .next (s.raise .stackUnderflow) := by
  obtain ⟨t, ht⟩ := exec_next .ret s
  obtain ⟨-, rfl⟩ | ⟨hne, -⟩ := exec_ret_cases ht
  · exact ht
  · exact absurd h hne

theorem exec_ret_pops {s : State} (h : s.sp.val ≠ 0) :
    exec .ret s = .next ((s.setStack ⟨s.sp.val - 1, by omega⟩ s.stack).setPc (s.stack[s.sp.val] + 2#16)) := by
  obtain ⟨t, ht⟩ := exec_next .ret s
  obtain ⟨h0, -⟩ | ⟨_, rfl⟩ := exec_ret_cases ht
  · exact absurd h0 h
  · exact ht

theorem exec_call_full {s : State} (nnn : Addr12) (h : s.sp.val = 15) :
    exec (.call nnn) s = .next (s.raise .stackOverflow) := by
  obtain ⟨t, ht⟩ := exec_next (.call nnn) s
  obtain ⟨-, rfl⟩ | ⟨hne, -⟩ := exec_call_cases ht
  · exact ht
  · exact absurd h hne

theorem exec_call_pushes {s : State} (nnn : Addr12) (h : s.sp.val ≠ 15) :
    exec (.call nnn) s = .next ((s.setStack ⟨s.sp.val + 1, by omega⟩
      (s.stack.set (s.sp.val + 1) s.pc (by omega))).setPc (zextAddr nnn)) := by
  obtain ⟨t, ht⟩ := exec_next (.call nnn) s
  obtain ⟨h0, -⟩ | ⟨_, rfl⟩ := exec_call_cases ht
  · exact absurd h0 h
  · exact ht

/-! ## The checked accesses (R98 to R100, R104) -/

theorem exec_drw_out {s : State} (x y : Nibble) {n : Nibble} (hn : 0 < n.toNat) (h : 4095 < s.i.toNat + n.toNat - 1) :
    exec (.drw x y n) s = .next (s.raise .memoryBounds) := by
  obtain ⟨t, ht⟩ := exec_next (.drw x y n) s
  obtain ⟨-, -, rfl⟩ | ⟨hb, -⟩ := exec_drw_cases ht
  · exact ht
  · omega

theorem exec_ldB_out {s : State} (x : Nibble) (h : 4095 < s.i.toNat + 2) :
    exec (.ldB x) s = .next (s.raise .memoryBounds) := by
  obtain ⟨t, ht⟩ := exec_next (.ldB x) s
  obtain ⟨-, rfl⟩ | ⟨hb, -⟩ := exec_ldB_cases ht
  · exact ht
  · omega

theorem exec_ldB_stores {s : State} (x : Nibble) (h : s.i.toNat + 2 ≤ 4095) :
    exec (.ldB x) s = .next (s.setMem (s.memWith s.base (decimalDigits (s.getV x)))).advance := by
  obtain ⟨t, ht⟩ := exec_next (.ldB x) s
  obtain ⟨hb, -⟩ | ⟨-, rfl⟩ := exec_ldB_cases ht
  · omega
  · exact ht

theorem exec_ldMemVx_out {s : State} {x : Nibble} (h : 4095 < s.i.toNat + x.toNat) :
    exec (.ldMemVx x) s = .next (s.raise .memoryBounds) := by
  obtain ⟨t, ht⟩ := exec_next (.ldMemVx x) s
  obtain ⟨-, rfl⟩ | ⟨hb, -⟩ := exec_ldMemVx_cases ht
  · exact ht
  · omega

theorem exec_ldMemVx_stores {s : State} {x : Nibble} (h : s.i.toNat + x.toNat ≤ 4095) :
    exec (.ldMemVx x) s = .next (s.setMem (s.memWith s.base (s.regsUpTo x))).advance := by
  obtain ⟨t, ht⟩ := exec_next (.ldMemVx x) s
  obtain ⟨hb, -⟩ | ⟨-, rfl⟩ := exec_ldMemVx_cases ht
  · omega
  · exact ht

theorem exec_ldVxMem_out {s : State} {x : Nibble} (h : 4095 < s.i.toNat + x.toNat) :
    exec (.ldVxMem x) s = .next (s.raise .memoryBounds) := by
  obtain ⟨t, ht⟩ := exec_next (.ldVxMem x) s
  obtain ⟨-, rfl⟩ | ⟨hb, -⟩ := exec_ldVxMem_cases ht
  · exact ht
  · omega

theorem exec_ldVxMem_loads {s : State} {x : Nibble} (h : s.i.toNat + x.toNat ≤ 4095) :
    exec (.ldVxMem x) s = .next (s.setRegs (loadRegs (s.bytesAt s.base (x.toNat + 1)) 0 s.v)).advance := by
  obtain ⟨t, ht⟩ := exec_next (.ldVxMem x) s
  obtain ⟨hb, -⟩ | ⟨-, rfl⟩ := exec_ldVxMem_cases ht
  · omega
  · exact ht

/-! ## The key wait (R110) -/

theorem exec_ldVxK_stores {s : State} (x : Nibble) {k : Nat} (h : s.firstKey = some k) :
    exec (.ldVxK x) s = .next (s.setV x (BitVec.ofNat 8 k)).advance := by
  simp only [exec, execLdVxK, h]

end Sys2Proof.Machine
end

section
/-! Pieces of state that an instruction does not read: the stack for all but `2nnn` and `00EE`, the dead slots, the sound timer
(10_state.md R19 to R21; 60_exceptions.md R129). -/

namespace Sys2Proof.Machine

/-- Only `00EE` and `2nnn` read the stack and its pointer, and no instruction reads the sound timer: any others in their place come
through unchanged. -/
theorem exec_setStack_setST {i : Instr} {s t : State} (hsp : .sp ∉ i.writes) (hst : .st ∉ i.writes)
    (h : exec i s = .next t) (p : Fin 16) (w : Vector Word 16) (b : Byte) :
    exec i ((s.setStack p w).setST b) = .next ((t.setStack p w).setST b) := by
  cases i with
  | ret | call | ldSTVx => simp [Instr.writes] at hsp hst
  | drw x y n =>
    obtain ⟨hn, hb, rfl⟩ | ⟨hb, rfl⟩ := exec_drw_cases h
    · exact exec_drw_out x y hn hb
    · exact exec_drw_ok _ x y n hb
  | ldB x =>
    obtain ⟨hb, rfl⟩ | ⟨hb, rfl⟩ := exec_ldB_cases h
    · exact exec_ldB_out x hb
    · exact exec_ldB_stores x hb
  | ldMemVx x =>
    obtain ⟨hb, rfl⟩ | ⟨hb, rfl⟩ := exec_ldMemVx_cases h
    · exact exec_ldMemVx_out hb
    · exact exec_ldMemVx_stores hb
  | ldVxMem x =>
    obtain ⟨hb, rfl⟩ | ⟨hb, rfl⟩ := exec_ldVxMem_cases h
    · exact exec_ldVxMem_out hb
    · exact exec_ldVxMem_loads hb
  | ldVxK x =>
    obtain ⟨hk, rfl⟩ | ⟨k, hk, rfl⟩ := exec_ldVxK_cases h
    · exact exec_ldVxK_held x hk
    · exact exec_ldVxK_stores x hk
  | _ =>
    cases h
    rfl

theorem exec_setStack {i : Instr} {s t : State} (hsp : .sp ∉ i.writes) (h : exec i s = .next t) (p : Fin 16)
    (w : Vector Word 16) : exec i (s.setStack p w) = .next (t.setStack p w) := by
  by_cases hst : .st ∈ i.writes
  · obtain ⟨x, rfl⟩ := i.writes_st_iff.1 hst
    cases h
    rfl
  · have h' := exec_setStack_setST hsp hst h p w s.st
    have e : (t.setStack p w).setST s.st = t.setStack p w := (exec_frame h).st hst ▸ rfl
    rwa [e] at h'

/-- An instruction does the same whatever the sound timer holds, and leaves it as it is or writes it. -/
theorem exec_setST {i : Instr} {s t : State} (h : exec i s = .next t) (b : Byte) :
    ∃ b', exec i (s.setST b) = .next (t.setST b') := by
  by_cases hst : .st ∈ i.writes
  · obtain ⟨x, rfl⟩ := i.writes_st_iff.1 hst
    cases h
    exact ⟨s.getV x, rfl⟩
  refine ⟨b, ?_⟩
  by_cases hsp : .sp ∈ i.writes
  · obtain rfl | ⟨nnn, rfl⟩ := i.writes_sp_iff.1 hsp
    · obtain ⟨h0, rfl⟩ | ⟨h0, rfl⟩ := exec_ret_cases h
      · exact exec_ret_empty h0
      · exact exec_ret_pops (s := s.setST b) h0
    · obtain ⟨h0, rfl⟩ | ⟨h0, rfl⟩ := exec_call_cases h
      · exact exec_call_full nnn h0
      · exact exec_call_pushes (s := s.setST b) nnn h0
  · have h' := exec_setStack_setST hsp hst h s.sp s.stack b
    have e : t.setStack s.sp s.stack = t := (exec_frame h).sp hsp ▸ (exec_frame h).stack (i.stack_notMem_writes hsp) ▸ rfl
    rwa [e] at h'

/-- Settles O24: an instruction keeps what it does not write, and what it does not read comes through unchanged. -/
theorem onlyCallAndReturnReachTheStack : Obligations.OnlyCallAndReturnReachTheStack := by
  refine fun i s t h => ⟨fun hi => ?_, fun ⟨hret, hcall⟩ => ?_, exec_slotZero h⟩
  · refine (exec_frame h).stack fun hw => ?_
    obtain ⟨nnn, hx⟩ := i.writes_stack_iff.1 hw
    exact hi nnn hx
  · have hsp : .sp ∉ i.writes := fun hw => by
      obtain hx | ⟨nnn, hx⟩ := i.writes_sp_iff.1 hw
      · exact hret hx
      · exact hcall nnn hx
    exact ⟨(exec_frame h).sp hsp, exec_setStack hsp h⟩

/-! ## Two states that agree where the core looks -/

/-- Two cores with the same latch and the same bytes to fetch take related steps, where raising a condition and executing an
instruction keep them related. -/
theorem step_related {R : State → State → Prop} {s s' : State} (hfault : s'.fault = s.fault) (hfetch : s'.fetch = s.fetch)
    (hR : R s s') (hraise : ∀ c, R (s.raise c) (s'.raise c))
    (hexec : ∀ i t, exec i s = .next t → ∃ t', exec i s' = .next t' ∧ R t t') :
    ∃ t t', step s = .next t ∧ step s' = .next t' ∧ R t t' := by
  unfold step
  rw [hfault, hfetch]
  cases s.fault with
  | some c => exact ⟨s, s', rfl, rfl, hR⟩
  | none =>
    cases s.fetch with
    | error c => exact ⟨_, _, rfl, rfl, hraise c⟩
    | ok op =>
      obtain ⟨t, ht⟩ := exec_next (decodeWord op) s
      obtain ⟨t', ht', hR'⟩ := hexec _ t ht
      exact ⟨t, t', ht, ht', hR'⟩

theorem stepEvent_setST (s : State) (b : Byte) : stepEvent (s.setST b) = stepEvent s := rfl

/-- Settles O27: the two states fetch the same word, and no instruction reads `ST`. -/
theorem soundTimerNeverInfluencesTheCore : Obligations.SoundTimerNeverInfluencesTheCore := by
  intro s b
  obtain ⟨t, _, hs, hs', b', rfl⟩ := step_related (R := fun t t' => ∃ b', t' = t.setST b') (s := s) (s' := s.setST b)
    rfl rfl ⟨b, rfl⟩ (fun c => ⟨b, rfl⟩) fun i t h => by
      obtain ⟨b', h'⟩ := exec_setST h b
      exact ⟨_, h', b', rfl⟩
  exact ⟨t, b', hs, hs', stepEvent_setST s b⟩

/-- An instruction keeps two stacks alike in the live slots: a call pushes the same address on both, a return pops the same. -/
theorem exec_withStack {i : Instr} {s t : State} {w : Vector Word 16} (hw : s.sameLiveSlots w) (h : exec i s = .next t) :
    ∃ w', exec i (s.withStack w) = .next (t.withStack w') ∧ t.sameLiveSlots w' := by
  by_cases hsp : .sp ∈ i.writes
  · obtain rfl | ⟨nnn, rfl⟩ := i.writes_sp_iff.1 hsp
    · obtain ⟨h0, rfl⟩ | ⟨h0, rfl⟩ := exec_ret_cases h
      · exact ⟨w, exec_ret_empty h0, hw⟩
      · refine ⟨w, ?_, fun k h1 hk => hw k h1 (hk.trans (Nat.sub_le _ _))⟩
        have hpop : w[s.sp.val] = s.stack[s.sp.val] := hw s.sp (Nat.pos_of_ne_zero h0) (Nat.le_refl _)
        rw [← hpop]
        exact exec_ret_pops (s := s.withStack w) h0
    · obtain ⟨h0, rfl⟩ | ⟨h0, rfl⟩ := exec_call_cases h
      · exact ⟨w, exec_call_full nnn h0, hw⟩
      · refine ⟨w.set (s.sp.val + 1) s.pc (by omega), exec_call_pushes (s := s.withStack w) nnn h0, fun k h1 hk => ?_⟩
        simp only [State.setPc_stack, State.setStack_stack, Vector.getElem_set]
        split
        · rfl
        · exact hw k h1 (by simp only [State.setPc_sp, State.setStack_sp] at hk; omega)
  · refine ⟨w, ?_, fun k h1 hk => ?_⟩
    · have h' := exec_setStack hsp h s.sp w
      have e : t.setStack s.sp w = t.withStack w := (exec_frame h).sp hsp ▸ rfl
      rwa [e] at h'
    · simp only [(exec_frame h).stack (i.stack_notMem_writes hsp)]
      exact hw k h1 ((exec_frame h).sp hsp ▸ hk)

/-- Settles O28: a return reads a live slot, a call writes the same address in both stacks, and no other instruction reads them.
-/
theorem deadStackSlotsNeverInfluenceTheCore : Obligations.DeadStackSlotsNeverInfluenceTheCore := by
  intro s w hw
  obtain ⟨t, _, hs, hs', w', rfl, hlive⟩ := step_related (R := fun t t' => ∃ w', t' = t.withStack w' ∧ t.sameLiveSlots w')
    (s := s) (s' := s.withStack w) rfl rfl ⟨w, rfl, hw⟩ (fun c => ⟨w, rfl, hw⟩) fun i t h => by
      obtain ⟨w', h', hlive⟩ := exec_withStack hw h
      exact ⟨_, h', w', rfl, hlive⟩
  exact ⟨t, w', hs, hs', hlive⟩

end Sys2Proof.Machine
end

section
/-! The arithmetic and bitwise instructions on registers `8xy0` to `8xyE` and the random byte `Cxkk` (43_alu.md R85 to R93;
42_load_imm.md R82). -/

namespace Sys2Proof

/-- A word of format `R` is decoded by the instruction whose encoding line it is. -/
theorem decodeWord_of_formatR {fam x y n : Nibble} {i : Instr} (hi : encode i = formatR fam x y n) (hwf : i.wf = true) :
    decodeWord (fam ++ x ++ y ++ n) = i := by
  rw [append_eq_formatR, ← hi, decodeWord_encode hwf]

end Sys2Proof

namespace Sys2Proof.Machine

/-- Settles O42: each instruction writes the one register `x` and advances; the result is read bit by bit. -/
theorem copyAndBitwiseOperations : Obligations.CopyAndBitwiseOperations := by
  refine fun s x y => ⟨decodeWord_of_formatR rfl rfl, decodeWord_of_formatR rfl rfl, decodeWord_of_formatR rfl rfl,
    decodeWord_of_formatR rfl rfl,
    ⟨_, rfl, s.getV_setV_advance_same x _, rfl, keepsRegs_setV s x _, (keeps_setV s x _).advance⟩,
    ⟨_, rfl, fun k _ => ?_, rfl, keepsRegs_setV s x _, (keeps_setV s x _).advance⟩,
    ⟨_, rfl, fun k _ => ?_, rfl, keepsRegs_setV s x _, (keeps_setV s x _).advance⟩,
    ⟨_, rfl, fun k _ => ?_, rfl, keepsRegs_setV s x _, (keeps_setV s x _).advance⟩⟩
  · rw [State.getV_setV_advance_same, BitVec.getLsbD_or]
  · rw [State.getV_setV_advance_same, BitVec.getLsbD_and]
  · rw [State.getV_setV_advance_same, BitVec.getLsbD_xor]

/-- The end of a flag-writing instruction whose result is `a` and whose flag is `b`: the flag is written last, so that with `x = 15`
it is what stays (R84). -/
theorem State.aluFlagged_next (s : State) (x : Nibble) {r : Byte} {flag : Bool} {a b : Nat} (hr : r.toNat = a)
    (hflag : (flagByte flag).toNat = b) : ∃ t, s.aluFlagged x r flag = .next t
      ∧ (x ≠ flagReg → (t.getV x).toNat = a) ∧ (t.getV flagReg).toNat = b ∧ t.pc = s.pc + 2
      ∧ KeepsRegsExcept [x, flagReg] s t ∧ KeepsExcept [.regs, .pc] s t := by
  refine ⟨_, rfl, fun hx => ?_, ?_, rfl, keepsRegs_flagged s x r _,
    ((keeps_setV s x r).trans (keeps_setV _ flagReg _)).advance⟩
  · rw [State.getV_advance, State.getV_setV_ne _ _ hx, State.getV_setV_same, hr]
  · rw [State.getV_setV_advance_same, hflag]

/-- A flag that is a decided condition. -/
theorem flagByte_decide (p : Prop) [Decidable p] : (flagByte (decide p)).toNat = if p then 1 else 0 := by
  simp

theorem flagByte_addCarry (a b : Byte) : (flagByte (addCarry a b)).toNat = if 255 < a.toNat + b.toNat then 1 else 0 := by
  rw [addCarry_eq, flagByte_decide]

theorem flagByte_notBorrow (a b : Byte) : (flagByte (notBorrow a b)).toNat = if b.toNat ≤ a.toNat then 1 else 0 := by
  rw [notBorrow_eq, flagByte_decide]

/-- Settles O43: the 9-bit sum and its top bit as numbers. -/
theorem addWithCarryOut : Obligations.AddWithCarryOut := fun s x _ =>
  ⟨decodeWord_of_formatR rfl rfl, s.aluFlagged_next x (addResult_toNat ..) (flagByte_addCarry ..)⟩

/-- Settles O44: the difference and its NOT borrow as numbers. -/
theorem subtractWithNotBorrow : Obligations.SubtractWithNotBorrow := fun s x _ =>
  ⟨decodeWord_of_formatR rfl rfl, s.aluFlagged_next x (subResult_toNat ..) (flagByte_notBorrow ..)⟩

/-- Settles O45: the same difference with its operands exchanged. -/
theorem reverseSubtractWithNotBorrow : Obligations.ReverseSubtractWithNotBorrow := fun s x _ =>
  ⟨decodeWord_of_formatR rfl rfl, s.aluFlagged_next x (subResult_toNat ..) (flagByte_notBorrow ..)⟩

/-- Settles O46: the shifted byte and the bit shifted out as numbers. -/
theorem shiftsCaptureTheLostBit : Obligations.ShiftsCaptureTheLostBit := fun s x _ =>
  ⟨s.aluFlagged_next x (shrResult_toNat _) (flagByte_shrLost _), s.aluFlagged_next x (shlResult_toNat _) (flagByte_shlLost _)⟩

theorem exec_rnd (x : Nibble) (kk : Byte) (s : State) :
    exec (.rnd x kk) s = .next (s.bumpDraws.setV x (Config.rnd s.draws &&& kk)).advance := rfl

theorem keeps_bumpDraws (s : State) : KeepsExcept [.draws] s s.bumpDraws := by
  intro p hp; cases p <;> simp_all [Part.kept]

/-- Settles O41: the instruction consumes a draw, writes the one register `x` and advances. -/
theorem randomIsMaskedByTheImmediate : Obligations.RandomIsMaskedByTheImmediate := by
  refine fun s x kk => ⟨_, exec_rnd x kk s, fun k _ => ?_, rfl, rfl, keepsRegs_setV s.bumpDraws x _, ?_⟩
  · rw [State.getV_setV_advance_same, BitVec.getLsbD_and]
  · have hdraw := (keeps_bumpDraws s).mono (qs := [.regs, .pc, .draws]) (by simp)
    exact hdraw.trans ((keeps_setV s.bumpDraws x _).advance.mono (by simp))

end Sys2Proof.Machine
end

section
/-! The skips on two registers and on a key, the key wait, and the unrecognized opcode (41_skip.md R75 to R78; 46_timer_key.md R110;
47_unrecognized.md R114). -/

namespace Sys2Proof.Machine

theorem exec_seReg (x y n : Nibble) (s : State) : exec (.seReg x y n) s = .next (s.skipIf (s.getV x == s.getV y)) := rfl

theorem exec_sneReg (x y n : Nibble) (s : State) : exec (.sneReg x y n) s = .next (s.skipIf (s.getV x != s.getV y)) := rfl

theorem exec_skp (x : Nibble) (s : State) : exec (.skp x) s = .next (s.skipIf (s.keyHeld (s.keyOf x))) := rfl

theorem exec_sknp (x : Nibble) (s : State) : exec (.sknp x) s = .next (s.skipIf (!s.keyHeld (s.keyOf x))) := rfl

/-- Settles O36: each instruction is one `skipIf`, on the bytes `V[x]` and `V[y]`. -/
theorem skipsOnTwoRegisters : Obligations.SkipsOnTwoRegisters := fun s x y n =>
  ⟨⟨_, exec_seReg x y n s, s.skipIf_beq_pc _ _, keeps_skipIf s _⟩,
    ⟨_, exec_sneReg x y n s, s.skipIf_bne_pc _ _, keeps_skipIf s _⟩⟩

/-- Settles O37: each instruction is one `skipIf`, on the key that the low nibble of `V[x]` names. -/
theorem skipsOnAKey : Obligations.SkipsOnAKey := by
  intro s x k hk
  have hkey : s.keyOf x = k := BitVec.eq_of_toNat_eq ((s.keyOf_toNat x).trans hk.symm)
  refine ⟨⟨_, exec_skp x s, ?_, keeps_skipIf s _⟩, ⟨_, exec_sknp x s, ?_, keeps_skipIf s _⟩⟩ <;>
    cases hheld : s.keyHeld k <;> simp [hkey, hheld]

/-- Settles O59: the key scan finds none, or the lowest key. -/
theorem keyWaitHoldsOrStoresTheLowestKey : Obligations.KeyWaitHoldsOrStoresTheLowestKey := by
  refine fun s x => ⟨fun hnone => exec_ldVxK_held x (s.firstKey_eq_none_iff.2 hnone), fun k hk hlow =>
    ⟨_, exec_ldVxK_stores x (s.firstKey_eq_some k hk hlow), ?_, rfl, keepsRegs_setV s x _, (keeps_setV s x _).advance⟩⟩
  rw [State.getV_setV_advance_same, BitVec.toNat_ofNat, Nat.mod_eq_of_lt (k.isLt.trans (by decide))]

theorem exec_undef (op : Word) (s : State) : exec (.undef op) s = .next s.advance := rfl

/-- Settles O60: the instruction advances. -/
theorem unrecognizedOpcodeIsANoOp : Obligations.UnrecognizedOpcodeIsANoOp := fun s op _ =>
  ⟨_, exec_undef op s, rfl, keeps_advance s⟩

end Sys2Proof.Machine
end

section
/-! The call `2nnn` and the return `00EE` (40_flow.md R65 to R71). -/

namespace Sys2Proof.Machine

theorem keeps_setStack (s : State) (p : Fin 16) (w : Vector Word 16) : KeepsExcept [.sp, .stack] s (s.setStack p w) := by
  intro q hq; cases q <;> simp_all [Part.kept]

/-- Settles O29: the two ends of `popReturn`. -/
theorem returnPopsAndSkipsTheCall : Obligations.ReturnPopsAndSkipsTheCall := by
  refine fun s => ⟨fun h => ⟨_, exec_ret_pops h, ?_, ?_, ?_⟩, fun h => ⟨_, exec_ret_empty h, rfl, keeps_raise s _⟩⟩
  · simp
  · exact Nat.sub_add_cancel (Nat.pos_of_ne_zero h)
  · intro p hp; cases p <;> simp_all [Part.kept]

/-- Settles O31: the two ends of `pushReturn`. -/
theorem callPushesItsOwnAddress : Obligations.CallPushesItsOwnAddress := by
  refine fun s nnn => ⟨fun h => ⟨_, exec_call_pushes nnn h, zextAddr_toNat nnn, rfl, fun k => ?_, ?_⟩,
    fun h => ⟨_, exec_call_full nnn h, rfl, keeps_raise s _⟩⟩
  · simp only [State.setPc_stack, State.setStack_stack, Vector.getElem_set, eq_comm]
  · have hstack := (keeps_setStack s ⟨s.sp.val + 1, by omega⟩ (s.stack.set (s.sp.val + 1) s.pc (by omega))).mono
      (qs := [.pc, .sp, .stack]) (by simp)
    exact hstack.trans ((keeps_setPc _ _).mono (by simp))

/-- Settles O33: the return pops the slot that the call has just written. -/
theorem callThenReturnResumesBehindTheCall : Obligations.CallThenReturnResumesBehindTheCall := by
  intro s nnn hsp
  refine ⟨_, _, exec_call_pushes nnn (by omega), exec_ret_pops (by simp), ?_, ?_, ?_, fun k hk => ?_⟩
  · simp
  · simp
  · intro p hp; cases p <;> simp_all [Part.kept]
  · simp [Ne.symm hk]

end Sys2Proof.Machine
end

section
/-! The index register and the memory instructions (44_index_memory.md R96 to R101; 20_memory.md R39 to R47). -/

namespace Sys2Proof.Machine

/-- In a canonical memory the first listed byte differs from what it reads as unlisted. -/
theorem Memory.read_head_ne {f : Font} {c : Host.Cell} {m : Memory} (hm : Memory.wf f (c :: m)) :
    Memory.read f (c :: m) c.1 ≠ Memory.unlisted f c.1 := by
  rw [Memory.read_cons, if_pos rfl]
  exact (hm.2 c (List.mem_cons_self ..)).2

theorem Memory.wf_tail {f : Font} {c : Host.Cell} {m : Memory} (hm : Memory.wf f (c :: m)) : m.wf f :=
  ⟨(List.pairwise_cons.1 hm.1).2, fun d hd => hm.2 d (List.mem_cons_of_mem c hd)⟩

theorem Memory.lt_of_mem_tail {f : Font} {c d : Host.Cell} {m : Memory} (hm : Memory.wf f (c :: m)) (hd : d ∈ m) : c.1 < d.1 :=
  (List.pairwise_cons.1 hm.1).1 d hd

/-- Canonical memories that read alike list no address before the other does: it would read as unlisted there. -/
theorem Memory.head_le_of_read {f : Font} {c d : Host.Cell} {m n : Memory} (hm : Memory.wf f (c :: m))
    (hn : Memory.wf f (d :: n)) (h : ∀ a, Memory.read f (c :: m) a = Memory.read f (d :: n) a) : d.1 ≤ c.1 := by
  by_contra hlt
  refine Memory.read_head_ne hm ((h c.1).trans (Memory.read_of_lt fun e he => ?_))
  obtain rfl | he := List.mem_cons.1 he
  · omega
  · have := Memory.lt_of_mem_tail hn he
    omega

/-- Canonical memories that read alike are the same list, cell by cell from the lowest address up. -/
theorem Memory.eq_of_read {f : Font} {m n : Memory} (hm : m.wf f) (hn : n.wf f) (h : ∀ a, m.read f a = n.read f a) :
    m = n := by
  induction m generalizing n with
  | nil =>
    cases n with
    | nil => rfl
    | cons d n => exact absurd (h d.1).symm (Memory.read_head_ne hn)
  | cons c m ih =>
    cases n with
    | nil => exact absurd (h c.1) (Memory.read_head_ne hm)
    | cons d n =>
      have haddr : d.1 = c.1 := Nat.le_antisymm (Memory.head_le_of_read hm hn h) (Memory.head_le_of_read hn hm fun a => (h a).symm)
      have hbyte : c.2 = d.2 := by simpa [Memory.read_cons, haddr] using h c.1
      have htail : m = n := ih (Memory.wf_tail hm) (Memory.wf_tail hn) fun a => by
        by_cases ha : a = c.1
        · subst ha
          rw [Memory.read_of_lt fun e => Memory.lt_of_mem_tail hm,
            Memory.read_of_lt fun e he => haddr ▸ Memory.lt_of_mem_tail hn he]
        · have := h a
          rwa [Memory.read_cons, Memory.read_cons, if_neg (Ne.symm ha), if_neg (haddr ▸ Ne.symm ha)] at this
      rw [htail, Prod.ext haddr.symm hbyte]

/-- Settles O11: the two lists agree from the lowest address up. -/
theorem canonicalMemoriesAreEqualWhenTheyReadAlike : Obligations.CanonicalMemoriesAreEqualWhenTheyReadAlike :=
  fun _ _ _ => Memory.eq_of_read

/-! ## The index register -/

theorem exec_addI (x : Nibble) (s : State) :
    exec (.addI x) s = .next (s.setI (s.i + zextByte (s.getV x))).advance := rfl

theorem exec_ldF (x : Nibble) (s : State) : exec (.ldF x) s = .next (s.setI (zextByte (s.getV x) * 5#16)).advance := rfl

/-- Five times a byte is below 65536 (R97). -/
theorem zextByte_mul_five_toNat (b : Byte) : (zextByte b * 5#16).toNat = b.toNat * 5 := by
  have := b.isLt
  rw [BitVec.toNat_mul, zextByte_toNat, BitVec.toNat_ofNat]
  omega

/-- Settles O47: each instruction writes `I` alone, and five times a byte does not wrap. -/
theorem indexArithmetic : Obligations.IndexArithmetic := by
  refine fun s x => ⟨⟨_, exec_addI x s, ?_, rfl, (keeps_setI s _).advance⟩,
    ⟨_, exec_ldF x s, zextByte_mul_five_toNat _, rfl, (keeps_setI s _).advance⟩⟩
  rw [State.advance_i, State.setI_i, BitVec.toNat_add, zextByte_toNat]

/-! ## Stores and loads -/

/-- Settles O48: the bytes after the store are those of `byteAfterDigits`. -/
theorem decimalDigitsAreStored : Obligations.DecimalDigitsAreStored := by
  refine fun s x hm hb => ⟨_, exec_ldB_stores x hb, ?_, ?_, ?_, fun a ha => State.byteAt_not_stored hm ha, rfl,
    (keeps_setMem s _).advance⟩ <;>
    rw [State.byteAt_advance, State.toNat_byteAt_afterDigits hm] <;> simp [State.byteAfterDigits]

/-- Byte `I + r` after `Fx55` is `V[r]` (R99). -/
theorem State.byteAt_afterRegs {s : State} (hm : s.memWf) {x r : Nibble} (h : r.toNat ≤ x.toNat) :
    (s.setMem (s.memWith s.base (s.regsUpTo x))).byteAt (s.i.toNat + r.toNat) = s.getV r := by
  have hlen : r.toNat < (s.regsUpTo x).length := by rw [State.length_regsUpTo]; omega
  exact (State.byteAt_stored_add hm s.base hlen).trans (s.getElem_regsUpTo x r.toNat hlen)

/-- Settles O49: the registers are one run of stores, read back at each offset. -/
theorem registersAreStored : Obligations.RegistersAreStored := by
  refine fun s x hm hb => ⟨_, exec_ldMemVx_stores hb, fun r hr => State.byteAt_afterRegs hm hr, fun a ha => ?_, rfl,
    (keeps_setMem s _).advance⟩
  refine State.byteAt_not_stored hm ?_
  rwa [State.length_regsUpTo]

theorem keeps_setRegs (s : State) (w : Vector Byte 16) : KeepsExcept [.regs] s (s.setRegs w) := by
  intro p hp; cases p <;> simp_all [Part.kept]

/-- Settles O50: each register reads what `loadRegs` left in it. -/
theorem registersAreLoaded : Obligations.RegistersAreLoaded := fun s x hb =>
  ⟨_, exec_ldVxMem_loads hb, s.getV_afterLoad x, rfl, (keeps_setRegs s _).advance⟩

/-- Settles O51: the check comes before the access and fails. -/
theorem accessOutOfBoundsRaisesAndChangesNothing : Obligations.AccessOutOfBoundsRaisesAndChangesNothing := fun s =>
  ⟨fun x hb => ⟨_, exec_ldB_out x hb, rfl, keeps_raise s _⟩,
    fun _ hb => ⟨⟨_, exec_ldMemVx_out hb, rfl, keeps_raise s _⟩, ⟨_, exec_ldVxMem_out hb, rfl, keeps_raise s _⟩⟩,
    fun x y _ hn hb => ⟨_, exec_drw_out x y hn hb, rfl, keeps_raise s _⟩⟩

/-- Settles O52: the load reads at `I + r` what the store left there. -/
theorem storeThenLoadRestoresTheRegisters : Obligations.StoreThenLoadRestoresTheRegisters := by
  intro s t u x hm hb ht hmem hi
  obtain ⟨hout, -⟩ | ⟨-, rfl⟩ := exec_ldMemVx_cases ht
  · omega
  · have hui : u.i = s.i := hi
    refine ⟨_, exec_ldVxMem_loads (by rwa [hui]), fun r hr => ?_, fun r hr => ?_⟩
    · rw [State.getV_advance, State.getV_afterLoad, if_pos hr, hmem, hui]
      exact State.byteAt_afterRegs hm hr
    · rw [State.getV_advance, State.getV_afterLoad, if_neg (Nat.not_le.2 hr)]

/-- The fetch behind an instruction that stored `m`: the next two bytes of `m`, the one at the lower address high (R41, R47). -/
theorem State.fetch_after_store {s : State} (m : Memory) (hpc : s.pc.toNat + 3 ≤ 4095) :
    ∃ op, (s.setMem m).advance.fetch = .ok op
      ∧ op.toNat = ((s.setMem m).byteAt (s.pc.toNat + 2)).toNat * 256 + ((s.setMem m).byteAt (s.pc.toNat + 3)).toNat := by
  have hnext : (s.setMem m).advance.pc.toNat = s.pc.toNat + 2 := by
    simp; omega
  refine ⟨_, State.fetch_ok _ (by omega), ?_⟩
  rw [hnext, toNat_wordOfBytes]
  rfl

/-- Settles O53: the fetch reads the memory that the store left, whose bytes are known one by one. -/
theorem storeIsSeenByTheNextFetch : Obligations.StoreIsSeenByTheNextFetch := by
  refine fun s x hm hpc => ⟨fun hb => ?_, fun hb => ?_⟩
  · obtain ⟨op, hfetch, hop⟩ := State.fetch_after_store (s.memWith s.base (s.regsUpTo x)) hpc
    rw [State.toNat_byteAt_afterRegs hm, State.toNat_byteAt_afterRegs hm] at hop
    exact ⟨_, op, exec_ldMemVx_stores hb, hfetch, hop⟩
  · obtain ⟨op, hfetch, hop⟩ := State.fetch_after_store (s.memWith s.base (decimalDigits (s.getV x))) hpc
    rw [State.toNat_byteAt_afterDigits hm, State.toNat_byteAt_afterDigits hm] at hop
    exact ⟨_, op, exec_ldB_stores x hb, hfetch, hop⟩

end Sys2Proof.Machine
end

section
/-! The draw `Dxyn` (45_draw.md R102 to R106). -/

namespace Sys2Proof.Machine

/-- Every pixel after a draw: it flips where the sprite has a 1 (R104). -/
theorem State.lit_afterDraw (s : State) (x y n : Nibble) {px py : Nat} (hx : px < 64) (hy : py < 32) :
    (s.afterDraw x y n).fb.lit px py = (s.fb.lit px py ^^ s.spriteSets x y n px py) := by
  have hspec := (togglePixels_spec _ (nodup_spritePixels (s.bytesAt s.base n.toNat) (s.getV x).toNat (s.getV y).toNat)
    s.fb false).1 px py
  simp only [State.mem_spritePixels_iff, hx, hy, and_true] at hspec
  refine hspec.trans ?_
  cases s.spriteSets x y n px py <;> simp

/-- The sprite has a 1 on a pixel of the framebuffer that is `lit`. -/
def State.SpriteMeets (s : State) (x y n : Nibble) (lit : Bool) : Prop :=
  ∃ px py, px ≤ 63 ∧ py ≤ 31 ∧ s.fb.lit px py = lit ∧ s.spriteSets x y n px py = true

/-- A draw collides where the sprite meets a lit pixel (R104). -/
theorem State.drawn_collides_iff (s : State) (x y n : Nibble) :
    (s.drawn x y (s.bytesAt s.base n.toNat)).2 = true ↔ s.SpriteMeets x y n true := by
  rw [State.drawn, (togglePixels_spec _ (nodup_spritePixels _ _ _) s.fb false).2, Bool.false_or, List.any_eq_true]
  constructor
  · rintro ⟨⟨px, py⟩, hmem, hlit⟩
    have hin : px < 64 ∧ py < 32 := by
      by_contra hout
      rw [Framebuffer.lit_of_out _ hout] at hlit
      cases hlit
    exact ⟨px, py, by omega, by omega, hlit, (s.mem_spritePixels_iff x y n px py).1 hmem⟩
  · rintro ⟨px, py, -, -, hlit, hset⟩
    exact ⟨(px, py), (s.mem_spritePixels_iff x y n px py).2 hset, hlit⟩

theorem State.flag_afterDraw (s : State) (x y n : Nibble) :
    (s.afterDraw x y n).getV flagReg = flagByte (s.drawn x y (s.bytesAt s.base n.toNat)).2 :=
  State.getV_setV_advance_same _ _ _

theorem flagByte_eq_one_iff (b : Bool) : flagByte b = 1 ↔ b = true := by cases b <;> decide

/-- The flag of a draw is its collision (R104). -/
theorem State.flag_afterDraw_eq_one_iff (s : State) (x y n : Nibble) :
    (s.afterDraw x y n).getV flagReg = 1 ↔ s.SpriteMeets x y n true := by
  rw [State.flag_afterDraw, flagByte_eq_one_iff, State.drawn_collides_iff]

/-- Settles O55: the pixel engine toggles each pixel of the sprite once. -/
theorem drawXorsTheSpriteAndReportsCollision : Obligations.DrawXorsTheSpriteAndReportsCollision := by
  refine fun s x y n hb => ⟨_, exec_drw_ok s x y n hb, fun px py hx hy => s.lit_afterDraw x y n (by omega) (by omega),
    (s.flag_afterDraw_eq_one_iff x y n).2, fun hnone => ?_, rfl, fun r hr => ?_, ?_⟩
  · rw [State.flag_afterDraw, Bool.eq_false_iff.2 fun h => hnone ((s.drawn_collides_iff x y n).1 h)]
    rfl
  · exact State.getV_setV_ne _ _ (by simpa using hr)
  · have hfb := (keeps_setFb s (s.drawn x y (s.bytesAt s.base n.toNat)).1).mono (qs := [.regs, .fb, .pc]) (by simp)
    exact hfb.trans ((keeps_setV _ _ _).advance.mono (by simp))

/-- The sprite of a second draw is that of the first, where the flag of the first is no coordinate. -/
theorem State.spriteSets_afterDraw (s : State) {x y : Nibble} (n : Nibble) (hx : x ≠ flagReg) (hy : y ≠ flagReg)
    (px py : Nat) : (s.afterDraw x y n).spriteSets x y n px py = s.spriteSets x y n px py := by
  have vx : (s.afterDraw x y n).getV x = s.getV x := State.getV_setV_ne _ _ hx
  have vy : (s.afterDraw x y n).getV y = s.getV y := State.getV_setV_ne _ _ hy
  rw [State.spriteSets, State.spriteSets, vx, vy]
  rfl

/-- Settles O56: the second draw flips the pixels that the first has flipped. -/
theorem drawingTwiceRestoresTheFramebuffer : Obligations.DrawingTwiceRestoresTheFramebuffer := by
  intro s x y n hx hy hb
  refine ⟨_, _, exec_drw_ok s x y n hb, exec_drw_ok (s.afterDraw x y n) x y n hb, ?_, ?_⟩
  · refine Framebuffer.ext_lit fun px py hpx hpy => ?_
    rw [State.lit_afterDraw _ _ _ _ hpx hpy, State.spriteSets_afterDraw s n hx hy, State.lit_afterDraw _ _ _ _ hpx hpy]
    simp
  · rw [State.flag_afterDraw_eq_one_iff, State.SpriteMeets]
    refine exists₂_congr fun px py => and_congr_right fun hpx => and_congr_right fun hpy => ?_
    rw [State.spriteSets_afterDraw s n hx hy, State.lit_afterDraw _ _ _ _ (by omega) (by omega)]
    cases s.spriteSets x y n px py <;> simp

end Sys2Proof.Machine
end

section
/-! `Reset` and the host's writes of the keys and the timers (10_state.md R30; 60_exceptions.md R128, R130). -/

namespace Sys2Proof.Machine

theorem State.getV_resetWith (f : Font) (r : Nibble) : (State.resetWith f).getV r = 0 := Vector.getElem_replicate ..

theorem State.keyHeld_resetWith (f : Font) (k : Nibble) : (State.resetWith f).keyHeld k = false :=
  Vector.getElem_replicate ..

/-- Settles O6: every field is a literal, an array of one value, or memory with nothing listed. -/
theorem resetLeavesTheListedValues : Obligations.ResetLeavesTheListedValues :=
  ⟨fun f => ⟨State.getV_resetWith f, rfl, rfl, rfl, fun _ => Vector.getElem_replicate .., rfl, rfl,
    State.keyHeld_resetWith f, lit_blankFb, fun a h => Memory.unlisted_glyph a h,
    fun a h _ => Memory.unlisted_above a h, rfl⟩, rfl, fun _ => rfl⟩

theorem State.keyHeld_setKey (s : State) (k j : Nibble) (b : Bool) :
    (s.setKey k b).keyHeld j = if j = k then b else s.keyHeld j := by
  simp only [State.keyHeld, State.setKey_keys, Vector.getElem_set, BitVec.toNat_inj, eq_comm]

theorem keeps_setKey (s : State) (k : Nibble) (b : Bool) : KeepsExcept [.keys] s (s.setKey k b) := by
  intro p hp; cases p <;> simp_all [Part.kept]

/-- Settles O8: the keys are one array, written at one index. -/
theorem setKeyWritesOneKey : Obligations.SetKeyWritesOneKey := fun s k b =>
  ⟨fun j => s.keyHeld_setKey k j b, keeps_setKey s k b⟩

/-- Settles O9: a tick writes the two timers, each with `tickByte` of its value. -/
theorem timerTickCountsDownToZero : Obligations.TimerTickCountsDownToZero := fun s =>
  ⟨tickByte_toNat s.dt, tickByte_toNat s.st,
    ((keeps_setDT s _).mono (by simp)).trans ((keeps_setST _ _).mono (by simp))⟩

end Sys2Proof.Machine
end
